-- ==== Sys2Proof/Word.lean ====
section
/-!
DEFINITION. The words of the hardware (R9): the widths are fixed and are no parameters.
Bits are numbered from 0, the least significant (R12), which is BitVec's own numbering; `a ++ b` is the spec's `a :: b`.
-/

namespace Sys2Proof

/-- A binary16 ("half") pattern, R70. -/
abbrev Half := BitVec 16

/-- A binary32 ("single") pattern, R73; it exists only inside ENCODE. -/
abbrev Single := BitVec 32

/-- A binary64 ("double") pattern, R74. -/
abbrev Double := BitVec 64

/-- One byte of a harness buffer, R51. -/
abbrev Byte := BitVec 8

/-- The transaction word `{op : 1 bit, a : 64 bits}` of R80, as one number: `op` at bit 0 (where the opcode table's mask 1 finds it)
and `a` above it, bits 64 to 1. DESIGN CHOICE (log 1), safe: the spec gives the two fields and not their places in one number, and
no result depends on them. -/
abbrev TransactionWord := BitVec 65

end Sys2Proof
end

