-- ==== Sys2Proof/Machine/Operands.lean ====
section
/-!
DEFINITION. Operand assembly (R84): the fields of the three formats and the patterns built from fields.
Exponent and fraction fields are natural numbers, since every rule computes with them over the integers (R13). Where a rule places a
result in a field it says that the value fits (R13); the lemmas of Laws/Units.lean are for that.
-/

namespace Sys2Proof.Machine

/-- `h[15]` (R70). -/
def sign16 (h : Half) : BitVec 1 := h.extractLsb' 15 1

/-- `exp5 = h[14:10]` (R70). -/
def exp5 (h : Half) : Nat := (h.extractLsb' 10 5).toNat

/-- `frac10 = h[9:0]` (R70). -/
def frac10 (h : Half) : Nat := (h.extractLsb' 0 10).toNat

/-- `f[31]` (R73, R104). -/
def sign32 (f : Single) : BitVec 1 := f.extractLsb' 31 1

/-- `exp8 = f[30:23]` (R73, R104). -/
def exp8 (f : Single) : Nat := (f.extractLsb' 23 8).toNat

/-- `frac23 = f[22:0]` (R73, R104). -/
def frac23 (f : Single) : Nat := (f.extractLsb' 0 23).toNat

/-- `a[63]` (R74). -/
def sign64 (a : Double) : BitVec 1 := a.extractLsb' 63 1

/-- `exp11 = a[62:52]` (R74). -/
def exp11 (a : Double) : Nat := (a.extractLsb' 52 11).toNat

/-- `frac52 = a[51:0]` (R74). -/
def frac52 (a : Double) : Nat := (a.extractLsb' 0 52).toNat

/-- The half pattern `s :: zext_5(e) :: zext_10(f)` (R70). -/
def pack16 (s : BitVec 1) (e f : Nat) : Half :=
  s ++ BitVec.ofNat 5 e ++ BitVec.ofNat 10 f

/-- The binary32 pattern `s :: zext_8(e) :: zext_23(f)` (R73). -/
def pack32 (s : BitVec 1) (e f : Nat) : Single :=
  s ++ BitVec.ofNat 8 e ++ BitVec.ofNat 23 f

/-- The binary64 pattern `s :: zext_11(e) :: zext_52(f)` (R74). -/
def pack64 (s : BitVec 1) (e f : Nat) : Double :=
  s ++ BitVec.ofNat 11 e ++ BitVec.ofNat 52 f

/-- A half pattern whose value is NaN (R71). -/
def isNaN16 (h : Half) : Bool := exp5 h == 31 && frac10 h != 0

/-- A binary64 pattern whose value is NaN (R74). -/
def isNaN64 (a : Double) : Bool := exp11 a == 2047 && frac52 a != 0

end Sys2Proof.Machine
end

