-- ==== Sys2Proof/Config.lean ====
section
/-!
DEFINITION. The OPEN parameters of R10. Both are constants without a body: no proof can see their value, so a claim about the model
holds for every value. The other parameters of R10 are fixed by the spec and stand where they are used.
-/

namespace Sys2Proof

/-- The two byte orders that `HOST_ENDIAN` ranges over (R10, R52). -/
inductive Endian where
  | little
  | big
  deriving DecidableEq, Repr, Inhabited

/-- `HOST_ENDIAN` (R10, R53, D11): the byte order of every harness buffer, fixed for a run. OPEN (log 8), safe. -/
opaque Config.hostEndian : Endian

/-- `LATENCY` (R10, R234, D3): cycles from operand to result in a build that registers its ports. OPEN (log 9), safe:
only Machine/Clocked.lean reads it, and no value of a result depends on it. -/
opaque Config.latency : Nat

end Sys2Proof
end

