-- ==== Sys2Proof/Syntax.lean ====
section
/-!
DEFINITION. The instructions of the hardware: the two operations of R2, one constructor per row of spec/opcode_table.json.
There are no others: no branches, loads, stores, system operations (R88 to R90) and no pseudo-instructions (R87).
-/

namespace Sys2Proof

/-- One transaction (R80): the operation that `op` selects (R81) and its operand field `a[63:0]`. -/
inductive Instr where
  /-- `encode`, op = 1, unit fp64_to_fp16_converter: operand `a[63:0]` (R100). -/
  | encode (a : Double)
  /-- `decode`, op = 0, unit fp16_to_fp64_converter: operand `a[15:0]`; `a[63:16]` is carried and ignored (R140, R82). -/
  | decode (a : Double)
  deriving DecidableEq, Repr

end Sys2Proof
end

