-- ==== Sys2Proof/Decode.lean ====
section
/-!
DEFINITION. The transaction word (R80 to R84) and its instruction: the decoder, then the encoder.
Every 65-bit word is a transaction: both values of `op` and every `a` are defined, nothing is reserved (R82), and every transaction
has this one shape (R83). The only thing that can be rejected is a number that is no 65-bit word. Nothing is stored in memory and
nothing is fetched from it (R63), so a word has no bytes.
-/

namespace Sys2Proof

/-- The selector `op` of a transaction word (R80, R81). -/
def transactionOp (w : TransactionWord) : BitVec 1 :=
  w.extractLsb' 0 1

/-- The operand field `a[63:0]` of a transaction word (R80). -/
def transactionOperand (w : TransactionWord) : Double :=
  w.extractLsb' 1 64

/-- The transaction word of `op` and `a` (R80). -/
def transactionWord (op : BitVec 1) (a : Double) : TransactionWord :=
  a ++ op

/-- R81: `op` alone selects the operation; `op` = 1 is `encode` and `op` = 0 is `decode`. Total (R82). -/
def decodeWord (w : TransactionWord) : Instr :=
  if transactionOp w = 1#1 then .encode (transactionOperand w) else .decode (transactionOperand w)

/-- Why a number is no transaction. -/
inductive DecodeError where
  /-- The number has a bit above bit 64: it is wider than the word of R80, the one shape there is (R83). Safe. -/
  | widerThanTransactionWord
  deriving DecidableEq, Repr

/-- The instruction of a number read as a transaction word, or the name of what is wrong with it. -/
def decodeNumber (w : Nat) : Except DecodeError Instr :=
  if w < 2 ^ 65 then .ok (decodeWord (BitVec.ofNat 65 w)) else .error .widerThanTransactionWord

/-- The decoder on bits numbered as spec/opcode_table.json numbers them: the low `nbits` bits of `w`, every bit above them 0. -/
def decodeTableWord (nbits w : Nat) : Option Instr :=
  match decodeNumber (w % 2 ^ nbits) with
  | .ok i => some i
  | .error _ => none

/-- The encoder: the transaction word of an instruction, from R81's opcode map. -/
def encodeInstr : Instr → TransactionWord
  | .encode a => transactionWord 1#1 a
  | .decode a => transactionWord 0#1 a

end Sys2Proof
end

