-- ==== Sys2Proof/Machine/Requests.lean ====
section
/-!
DEFINITION. What the host can ask for, as plain data: a transaction (R80), a call of the harness (R170 to R179), or one line of a
test program in the syntax of R85 and R86. The harness is host software, not hardware (R6); it stands here because the spec
specifies it and its byte layout.
-/

namespace Sys2Proof.Machine

/-- A host agent (R211). Agents need no identifiers of their own (R211); the model numbers them to tell them apart. -/
abbrev Agent := Nat

/-- The name of a harness instance (`A` in R86). DESIGN CHOICE (log 13), safe: any number. -/
abbrev ArrayName := Nat

/-- A number the host hands over as an index or a length (R171, R172, R86): a decimal number, or something that is no number. -/
inductive HostNumber where
  /-- `mantissa * 10 ^ -places`: 2.5 is `decimal 25 1`, 3.0 is `decimal 30 1`, -1 is `decimal (-1) 0`. -/
  | decimal (mantissa : Int) (places : Nat)
  /-- "a non-numeric value" (R172), a NaN or an infinity of the host among them (log 14). -/
  | nonNumeric
  deriving DecidableEq, Repr

/-- A call of the harness by an agent, with its operands. -/
inductive HostCall where
  /-- `construct(length)`, R171. -/
  | construct (array : ArrayName) (length : HostNumber)
  /-- `get(index)`, R173. -/
  | get (array : ArrayName) (index : HostNumber)
  /-- `set(index, value)`, R174; the value is a binary64 pattern, used as it is (R175). -/
  | set (array : ArrayName) (index : HostNumber) (value : Double)
  /-- `length()`, R176. -/
  | length (array : ArrayName)
  /-- `byteLength()`, R176. -/
  | byteLength (array : ArrayName)
  /-- The bulk consumer reads bytes of the backing buffer, R179. -/
  | readBytes (array : ArrayName) (offset count : Nat)
  /-- The bulk consumer writes bytes of the backing buffer, R179. -/
  | writeBytes (array : ArrayName) (offset : Nat) (bytes : List Byte)
  /-- The caller synchronises with the agent `partner`: what the caller has done so far, and what was already ordered before that, is
  ordered before what `partner` does next. By means outside the spec (R61). DESIGN CHOICE (log 5). -/
  | synchronise (partner : Agent)
  deriving DecidableEq, Repr

/-- A hexadecimal digit of a literal. -/
abbrev HexDigit := Fin 16

/-- The literal forms `<x64>` of R85. -/
inductive Literal64 where
  /-- `0x` and these digits, the first the most significant; the syntax admits exactly 16. -/
  | hex (digits : List HexDigit)
  /-- A decimal literal of value `(-1)^negative * mantissa * 10^exponent10`: `-2.5` is `decimal true 25 (-1)`. -/
  | decimal (negative : Bool) (mantissa : Nat) (exponent10 : Int)
  /-- `+0.0` or `-0.0`. -/
  | zero (negative : Bool)
  /-- `+inf` or `-inf`. -/
  | infinity (negative : Bool)
  /-- `nan` or `-nan`. -/
  | nan (negative : Bool)
  /-- `2^k`, for an integer k from -1074 to 1023. -/
  | pow2 (k : Int)
  deriving DecidableEq, Repr

/-- One line of a test program, R85 (the transactions) and R86 (the harness calls). -/
inductive Line where
  /-- `encode <x64>`. -/
  | encode (x : Literal64)
  /-- `decode <x16>`: `0x` and these digits; the syntax admits exactly 4. -/
  | decode (digits : List HexDigit)
  /-- `new A, <n>`. -/
  | new (array : ArrayName) (length : HostNumber)
  /-- `set A, <i>, <x64>`. -/
  | set (array : ArrayName) (index : HostNumber) (x : Literal64)
  /-- `get A, <i>`. -/
  | get (array : ArrayName) (index : HostNumber)
  /-- `len A`. -/
  | len (array : ArrayName)
  /-- `bytes A`. -/
  | bytes (array : ArrayName)
  deriving DecidableEq, Repr

/-- What an agent presents. -/
inductive Request where
  /-- A transaction word, any of the 2^65 (R80, R82). -/
  | transaction (word : TransactionWord)
  /-- A harness call. -/
  | call (c : HostCall)
  /-- A line of a test program, to be assembled (R85, R86). -/
  | line (l : Line)
  deriving DecidableEq, Repr

/-- A request with the agent that presents it. -/
structure Presented where
  agent : Agent
  request : Request
  deriving DecidableEq, Repr

end Sys2Proof.Machine
end

