-- ==== Sys2Proof/Machine/State.lean ====
section
/-!
DEFINITION. The state. The units have none (R30 to R38): every field is the host's. `arrays` is the harness storage the spec gives
(R37, R170) and `accesses` what its race rule needs (R60); `pending`, `caller`, `issued` and `results` are the model's own record of
what the host presents (R31) and what comes back (R80, R202) (log 2, log 4).
-/

namespace Sys2Proof.Machine

/-- The bytes of one backing buffer by byte offset (R51), in the canonical form `Memory.wf`: only bytes that differ from 0x00, the
value every byte has after construction (R39), in order of rising offset. -/
abbrev Memory := List Host.Cell

/-- A `HalfPrecisionArray` instance (R37, R170): its fixed length and its storage, as the bytes of the backing buffer (R51). -/
structure HalfArray where
  length : Nat
  buffer : Memory
  deriving DecidableEq, Repr

/-- The two errors of the harness (R202). Both are results that the caller gets; neither stops the machine (R177). -/
inductive HarnessError where
  /-- An integer index outside [0, length). -/
  | indexOutOfRange
  /-- An index that is no integer. -/
  | invalidIndex
  deriving DecidableEq, Repr

/-- What an operation returns to its caller. -/
inductive Reply where
  /-- The result `r[63:0]` of a transaction (R80). -/
  | word (r : BitVec 64)
  /-- The binary64 pattern that `get` returns (R173). -/
  | binary64 (d : Double)
  /-- `set` succeeded (R174). -/
  | ok
  /-- What `length()` and `byteLength()` return (R176). -/
  | number (n : Nat)
  /-- What a bulk consumer reads (R179). -/
  | bytes (bs : List Byte)
  /-- The operation failed with this error (R202). -/
  | error (e : HarnessError)
  deriving DecidableEq, Repr

/-- An access to a harness instance, kept to tell an execution that R60 refuses (log 5). -/
structure Access where
  agent : Agent
  array : ArrayName
  writes : Bool
  /-- The agents whose next operations a synchronisation has ordered after this access. -/
  orderedBefore : List Agent
  deriving DecidableEq, Repr

/-- Faults: none. "fault: never" (R214), because the units raise nothing for any operand (R200) and the harness returns its errors
(R177). The type has no constructor, so no meaning can fault. Safe (log 15). -/
inductive Fault where
  deriving DecidableEq, Repr

/-- Refusals: a case to which the spec gives no meaning (R214). All are safe: a refusal errs toward unprovable. -/
inductive Refusal where
  /-- An instruction that has no meaning yet; raised by `exec`'s arm alone. No arm raises it. Safe. -/
  | notModelled (mnemonic : String)
  /-- `construct` with a negative or non-integer length (R171, R214). Raised by `execConstruct`. Safe. -/
  | badConstructLength
  /-- A call on an instance that was never constructed (R232). Raised by every harness call that names an instance. Safe. -/
  | neverConstructed
  /-- Two agents access one instance with no synchronisation between them, one of them writing (R60, R181). Raised by every harness
  call that accesses an instance. Safe. -/
  | unsynchronisedAccess
  /-- A byte-view access outside offsets 0 to 2*length-1, the whole address space of an instance (R51). Raised by `execReadBytes`
  and `execWriteBytes`. DEDUCED (log 7). Safe. -/
  | byteOutsideBuffer
  /-- A test-program literal outside R85 (R214). Raised when a line is assembled. Safe. -/
  | literalOutsideSyntax
  deriving DecidableEq, Repr

/-- The state: the host's, since the units hold nothing between transactions (R35). -/
structure State where
  /-- What the agents have yet to present, in the order in which it takes effect (R31, R60). The model's own (log 2). -/
  pending : List Presented
  /-- The agent whose request is being performed. The model's own (log 4). -/
  caller : Agent
  /-- The transaction words presented to the units so far, oldest first. The model's own (log 4). -/
  issued : List TransactionWord
  /-- What was returned so far and to whom, oldest first. The model's own (log 4). -/
  results : List (Agent × Reply)
  /-- The harness instances constructed so far (R37, R170), each name once, in the order of their construction. -/
  arrays : List (ArrayName × HalfArray)
  /-- The accesses to instances so far (R60). -/
  accesses : List Access
  deriving DecidableEq, Repr

/-- After power-on. The units have no state and no reset (R38, R230); no instance exists (R232; 95 P4) and nothing is presented yet.
The values of the model's own fields are a DESIGN CHOICE (log 2, log 4). -/
def State.reset : State where
  pending := []
  caller := 0
  issued := []
  results := []
  arrays := []
  accesses := []

end Sys2Proof.Machine
end

