-- ==== Sys2Proof/Machine/Ops.lean ====
section
/-!
DEFINITION. The shared operations: rounding (R17, R18), the bytes and slots of a buffer (R51, R52), the instances by name (R37), the
record of accesses (R60), and what an operation issues and returns (R80, R202). There is no exception to take and none to return
from (R205, R206).
-/

namespace Sys2Proof.Machine

/-- `RoundRNE(m, k)`: m shifted right by k bits and rounded to nearest, ties to even (R17). -/
def roundRNE (m k : Nat) : Nat :=
  if k = 0 then m
  else
    let q := m >>> k
    let extra := m % 2 ^ k
    let half := 2 ^ (k - 1)
    if extra > half then q + 1
    else if extra = half ∧ q % 2 = 1 then q + 1
    else q

/-- `msb(x)`, the index of the most significant set bit, for x at least 1 (R18). -/
def msb (x : Nat) : Nat := Nat.log2 x

/-- The value of a byte of a buffer that nothing has written: "the bit pattern for +0.0" is 0x0000 (R39, R171). -/
def unlistedByte : Byte := 0x00#8

/-- The canonical form of a buffer: offsets strictly rising and no entry equal to what an unlisted offset reads as. -/
abbrev Memory.wf (m : Memory) : Prop :=
  m.Pairwise (fun c d => c.1 < d.1) ∧ ∀ c ∈ m, c.2 ≠ unlistedByte

/-- The byte at offset `a`. -/
def Memory.readByte : Memory → Nat → Byte
  | [], _ => unlistedByte
  | (k, b) :: m, a => if k = a then b else Memory.readByte m a

/-- A cell put in front, unless it holds what an unlisted offset reads as. -/
def Memory.cons (a : Nat) (v : Byte) (m : Memory) : Memory :=
  if v = unlistedByte then m else (a, v) :: m

/-- The buffer with byte `v` at offset `a`, in canonical form. -/
def Memory.writeByte : Memory → Nat → Byte → Memory
  | [], a, v => Memory.cons a v []
  | (k, b) :: m, a, v =>
    if a < k then Memory.cons a v ((k, b) :: m)
    else if a = k then Memory.cons a v m
    else (k, b) :: Memory.writeByte m a v

/-- `MemRead(addr, 2)` under a byte order (R52). -/
def memRead (e : Endian) (m : Memory) (addr : Nat) : Half :=
  match e with
  | .little => m.readByte (addr + 1) ++ m.readByte addr
  | .big => m.readByte addr ++ m.readByte (addr + 1)

/-- `MemWrite(addr, 2, h)` under a byte order (R52). -/
def memWrite (e : Endian) (m : Memory) (addr : Nat) (h : Half) : Memory :=
  match e with
  | .little => (m.writeByte addr (h.extractLsb' 0 8)).writeByte (addr + 1) (h.extractLsb' 8 8)
  | .big => (m.writeByte addr (h.extractLsb' 8 8)).writeByte (addr + 1) (h.extractLsb' 0 8)

/-- `count` bytes from `offset` on (R179). -/
def Memory.readBytes (m : Memory) : Nat → Nat → List Byte
  | _, 0 => []
  | offset, count + 1 => m.readByte offset :: Memory.readBytes m (offset + 1) count

/-- The bytes `bs` written from `offset` on (R179). -/
def Memory.writeBytes (m : Memory) : Nat → List Byte → Memory
  | _, [] => m
  | offset, b :: bs => Memory.writeBytes (m.writeByte offset b) (offset + 1) bs

/-- `byteLength()`: the buffer of an instance has 2 * length bytes (R51, R176). -/
def HalfArray.byteLength (arr : HalfArray) : Nat := 2 * arr.length

/-- `storage[i]`: element i is the two bytes at offsets 2i and 2i + 1 (R52). -/
def HalfArray.slot (e : Endian) (arr : HalfArray) (i : Nat) : Half :=
  memRead e arr.buffer (2 * i)

/-- `storage[i] <- h`, both bytes in one step (R56). -/
def HalfArray.setSlot (e : Endian) (arr : HalfArray) (i : Nat) (h : Half) : HalfArray :=
  { arr with buffer := memWrite e arr.buffer (2 * i) h }

/-- A new instance: every slot 0x0000 (R171). -/
def HalfArray.fresh (n : Nat) : HalfArray := { length := n, buffer := [] }

/-- The instance of a name, if one was constructed (R232). -/
def findArray : List (ArrayName × HalfArray) → ArrayName → Option HalfArray
  | [], _ => none
  | (k, arr) :: rest, name => if k = name then some arr else findArray rest name

/-- The instances with `name` bound to `arr`: in its place if the name is bound, at the end otherwise. -/
def putArray : List (ArrayName × HalfArray) → ArrayName → HalfArray → List (ArrayName × HalfArray)
  | [], name, arr => [(name, arr)]
  | (k, old) :: rest, name, arr =>
    if k = name then (name, arr) :: rest else (k, old) :: putArray rest name arr

/-- The integer a number equals, if it equals one: 3.0 does, 2.5 does not, and nothing is floored, rounded or wrapped (R172). -/
def HostNumber.toInt? : HostNumber → Option Int
  | .decimal mantissa places =>
    if mantissa % 10 ^ places = 0 then some (mantissa / 10 ^ places) else none
  | .nonNumeric => none

/-- The index check (R172), in the order of R178: the integer check, then the range check. -/
def checkIndex (arr : HalfArray) (index : HostNumber) : Except HarnessError Nat :=
  match index.toInt? with
  | none => .error .invalidIndex
  | some i => if i < 0 ∨ (arr.length : Int) ≤ i then .error .indexOutOfRange else .ok i.toNat

/-- Whether `index` is valid for the instance (R172). -/
def validIndex (arr : HalfArray) (index : HostNumber) : Bool :=
  match checkIndex arr index with
  | .ok _ => true
  | .error _ => false

/-- Whether an access by `g`, writing or not, races with `x`: another agent's access to the same instance, one of the two writing,
with no synchronisation between them (R60). -/
def Access.racesWith (x : Access) (g : Agent) (name : ArrayName) (writes : Bool) : Bool :=
  x.array == name && x.agent != g && (x.writes || writes) && !x.orderedBefore.contains g

/-- Whether the caller's access to `name` would race with one already made (R60). -/
def State.races (s : State) (name : ArrayName) (writes : Bool) : Bool :=
  s.accesses.any (fun x => x.racesWith s.caller name writes)

/-- The caller's access to `name`, recorded. -/
def State.recordAccess (s : State) (name : ArrayName) (writes : Bool) : State :=
  { s with accesses := s.accesses ++ [{ agent := s.caller, array := name, writes := writes, orderedBefore := [] }] }

/-- Whether `g` knows of `x`: `x` is its own, or a synchronisation ordered `x` before it. -/
def Access.knownTo (x : Access) (g : Agent) : Bool :=
  x.agent == g || x.orderedBefore.contains g

/-- The access with `target` among the agents it is ordered before, where `source` knows of it. -/
def Access.publish (x : Access) (source target : Agent) : Access :=
  if x.knownTo source && !x.knownTo target then { x with orderedBefore := target :: x.orderedBefore } else x

/-- Every harness call on an existing instance begins here: the instance must have been constructed (R232) and the access must race
with none before it (R60). `writes` says of the instance whether this call writes to it. -/
def State.openArray (s : State) (name : ArrayName) (writes : HalfArray → Bool) : Except Refusal (HalfArray × State) :=
  match findArray s.arrays name with
  | none => .error .neverConstructed
  | some arr =>
    if s.races name (writes arr) then .error .unsynchronisedAccess
    else .ok (arr, s.recordAccess name (writes arr))

/-- `name` bound to `arr`. -/
def State.putArray (s : State) (name : ArrayName) (arr : HalfArray) : State :=
  { s with arrays := Machine.putArray s.arrays name arr }

/-- The accesses to `name` forgotten: its name now stands for a new instance, which nobody has accessed (log 6). -/
def State.forgetAccesses (s : State) (name : ArrayName) : State :=
  { s with accesses := s.accesses.filter (fun x => x.array != name) }

/-- The caller synchronises with `partner`: every access the caller knows of is ordered before what `partner` does next (log 5). -/
def State.synchronise (s : State) (partner : Agent) : State :=
  { s with accesses := s.accesses.map (fun x => x.publish s.caller partner) }

/-- A transaction word presented to the units (R80). The units keep nothing of it (R35); the model records it (log 4). -/
def State.issue (s : State) (op : BitVec 1) (a : Double) : State :=
  { s with issued := s.issued ++ [transactionWord op a] }

/-- A result returned to the caller (R80, R202). -/
def State.reply (s : State) (r : Reply) : State :=
  { s with results := s.results ++ [(s.caller, r)] }

end Sys2Proof.Machine
end

