-- ==== Sys2Proof/Machine/Fp16ToFp64.lean ====
section
/-!
DEFINITION. DECODE, the unit fp16_to_fp64_converter (R78, R140): always exact, never rounds (R76, R150).
-/

namespace Sys2Proof.Machine

/-- `DECODE_NAN` (R10, R147): the quiet NaN of sign `s` with no payload. The spec's own choice (D6; log 10). -/
def decodeNaN (s : BitVec 1) : Double := s ++ (0x7FF#11 ++ (1#1 ++ 0#51))

/-- `DECODE(h)` (R140): zero R142, subnormal R143 and R144, NaN R147, infinity R148, normal R145 and R146; the sign on every path R149. -/
def fp16ToFp64 (h : Half) : Double :=
  let s := sign16 h
  if exp5 h = 0 then
    if frac10 h = 0 then s ++ 0#63
    else
      let p := msb (frac10 h)
      pack64 s (p + 999) ((frac10 h - 2 ^ p) <<< (52 - p))
  else if exp5 h = 0x1F then
    if frac10 h = 0 then pack64 s 0x7FF 0 else decodeNaN s
  else pack64 s (exp5 h + 1008) (frac10 h <<< 42)

/-- `decode`: `r <- DECODE(a[15:0])`; a[63:16] is ignored (R80, R82, R140). No flag, no exception, for any operand (R32, R200). -/
def execDecode (a : Double) (s : State) : Host.Outcome State Fault Refusal :=
  .next ((s.issue 0#1 a).reply (.word (fp16ToFp64 (a.extractLsb' 0 16))))

end Sys2Proof.Machine
end

