-- ==== Sys2Proof/Machine/Fp64ToFp16.lean ====
section
/-!
DEFINITION. ENCODE, the unit fp64_to_fp16_converter (R77, R100): Narrow (R102, R103) and then the source's steps 2 to 8
(R104 to R114). All arithmetic is over the integers (R13). There is one rounding mode and no option (R2, R11, R33).
-/

namespace Sys2Proof.Machine

/-- R102, the binary32 normal range, `1 ≤ e8 ≤ 254`: round the 53-bit significand to 24 bits; the carry moves to the exponent. -/
def narrowNormal (s : BitVec 1) (m e8 : Nat) : Single :=
  let q := roundRNE m 29
  if q = 2 ^ 24 then
    if e8 + 1 ≥ 255 then pack32 s 0xFF 0 else pack32 s (e8 + 1) 0
  else pack32 s e8 (q - 2 ^ 23)

/-- R102, the binary32 subnormal range, with `k = 30 - e8 ≥ 30`: `s :: zext_31(q)`. -/
def narrowSubnormal (s : BitVec 1) (m k : Nat) : Single :=
  if k ≥ 54 then s ++ 0#31 else s ++ BitVec.ofNat 31 (roundRNE m k)

/-- `Narrow(a)` (R102): the binary32 pattern nearest to val64(a), ties to even. A NaN stays a NaN of its sign (R103). -/
def narrow (a : Double) : Single :=
  let s := sign64 a
  if exp11 a = 0x7FF then
    if frac52 a ≠ 0 then s ++ 0xFF#8 ++ (1#1 ++ a.extractLsb' 29 22) else pack32 s 0xFF 0
  else if exp11 a = 0 then s ++ 0#31
  else
    let m := 2 ^ 52 ||| frac52 a
    let e8 : Int := (exp11 a : Int) - 896
    if e8 ≥ 255 then pack32 s 0xFF 0
    else if e8 ≥ 1 then narrowNormal s m e8.toNat
    else narrowSubnormal s m (30 - e8).toNat

/-- `halfSign = sign << 15` (R105). -/
def halfSign (f : Single) : Half := (sign32 f).setWidth 16 <<< 15

/-- The signed infinity (R106, R108, R113). -/
def halfInfinity (f : Single) : Half := halfSign f ||| 0x7C00#16

/-- `newExp = exp8 - 127 + 15` (R107), from -112 to 142. -/
def rebias (f : Single) : Int := (exp8 f : Int) - 127 + 15

/-- The subnormal path (R110, R111), for -10 ≤ newExp ≤ 0: the carry q = 0x400 is kept, and no mask is applied (90 C3). -/
def halfSubnormal (f : Single) : Half :=
  let mantissa := frac23 f ||| 0x800000
  let shift := (14 - rebias f).toNat
  halfSign f ||| BitVec.ofNat 16 (roundRNE mantissa shift)

/-- The normal path (R112 to R114), for 1 ≤ newExp ≤ 30. -/
def halfNormal (f : Single) : Half :=
  let hm := roundRNE (frac23 f) 13
  let newExp := (rebias f).toNat
  if hm = 0x400 then
    if newExp + 1 ≥ 31 then halfInfinity f
    else halfSign f ||| (BitVec.ofNat 16 (newExp + 1) <<< 10) ||| 0#16
  else halfSign f ||| (BitVec.ofNat 16 newExp <<< 10) ||| BitVec.ofNat 16 hm

/-- `HalfFromSingle(f)` (R101): the source's steps 2 to 8. -/
def halfFromSingle (f : Single) : Half :=
  if exp8 f = 0xFF then
    if frac23 f ≠ 0 then halfSign f ||| 0x7E00#16 else halfInfinity f
  else if rebias f ≥ 31 then halfInfinity f
  else if rebias f ≤ 0 then
    if rebias f < -10 then halfSign f else halfSubnormal f
  else halfNormal f

/-- `ENCODE(a)` (R100, R101): the unit always narrows first. -/
def fp64ToFp16 (a : Double) : Half := halfFromSingle (narrow a)

/-- `encode`: `r <- zext_64(ENCODE(a[63:0]))`, so r[63:16] = 0 (R80, R100). No flag, no exception, for any operand (R32, R200). -/
def execEncode (a : Double) (s : State) : Host.Outcome State Fault Refusal :=
  .next ((s.issue 1#1 a).reply (.word ((fp64ToFp16 a).setWidth 64)))

end Sys2Proof.Machine
end

