-- ==== Sys2Proof/Machine/Dispatch.lean ====
section
/-! DEFINITION. One arm per instruction. -/

namespace Sys2Proof.Machine

/-- What one transaction does, by its operation (R81). -/
def exec (i : Instr) (s : State) : Host.Outcome State Fault Refusal :=
  match i with
  | .encode a => Sys2Proof.Machine.execEncode a s
  | .decode a => Sys2Proof.Machine.execDecode a s

end Sys2Proof.Machine
end

