-- ==== Sys2Proof/Machine/Assembly.lean ====
section
/-!
DEFINITION. The assembler of the spec's test programs (R85 to R87): a literal to its pattern, a line to the one request it stands
for. A literal outside R85 is refused (R214). There are no pseudo-instructions (R87).
-/

namespace Sys2Proof.Machine

/-- The number that hexadecimal digits spell, the first the most significant. -/
def hexValue (digits : List HexDigit) : Nat :=
  digits.foldl (fun acc d => 16 * acc + d.val) 0

/-- The binary64 pattern of sign `s` whose magnitude is exactly `n / 2^k`, if there is one (R74, R85). -/
def exactDouble (s : BitVec 1) (n k : Nat) : Option Double :=
  if n = 0 then some (s ++ 0#63)
  else
    let p := msb n
    let e : Int := (p : Int) - k
    if e > 1023 then none
    else if e ≥ -1022 then
      if p ≤ 52 then some (pack64 s (e + 1023).toNat ((n - 2 ^ p) <<< (52 - p)))
      else if n % 2 ^ (p - 52) = 0 then some (pack64 s (e + 1023).toNat ((n >>> (p - 52)) - 2 ^ 52))
      else none
    else if k ≤ 1074 then some (pack64 s 0 (n <<< (1074 - k)))
    else if n % 2 ^ (k - 1074) = 0 then some (pack64 s 0 (n >>> (k - 1074)))
    else none

/-- The sign bit of a literal. -/
def signBit (negative : Bool) : BitVec 1 := BitVec.ofBool negative

/-- A decimal literal: the pattern whose value is exactly `mantissa * 10^exponent10`, if there is one (R85). A value of zero takes
the literal's own sign (log 12). -/
def decimalBits (negative : Bool) (mantissa : Nat) (exponent10 : Int) : Option Double :=
  if exponent10 ≥ 0 then
    exactDouble (signBit negative) (mantissa * 10 ^ exponent10.toNat) 0
  else
    let d := (-exponent10).toNat
    if mantissa % 5 ^ d = 0 then exactDouble (signBit negative) (mantissa / 5 ^ d) d else none

/-- The pattern a literal `<x64>` stands for, or none where R85 does not admit it. -/
def Literal64.bits? : Literal64 → Option Double
  | .hex digits => if digits.length = 16 then some (BitVec.ofNat 64 (hexValue digits)) else none
  | .decimal negative mantissa exponent10 => decimalBits negative mantissa exponent10
  | .zero negative => some (signBit negative ++ 0#63)
  | .infinity negative => some (pack64 (signBit negative) 0x7FF 0)
  | .nan negative => some (signBit negative ++ (0x7FF#11 ++ (1#1 ++ 0#51)))
  | .pow2 k =>
    if -1074 ≤ k ∧ k ≤ 1023 then
      if k ≥ 0 then exactDouble 0#1 (2 ^ k.toNat) 0 else exactDouble 0#1 1 (-k).toNat
    else none

/-- The half pattern a literal `<x16>` stands for, or none where R85 does not admit it. -/
def literal16Bits? (digits : List HexDigit) : Option Half :=
  if digits.length = 4 then some (BitVec.ofNat 16 (hexValue digits)) else none

/-- What a request comes to: one transaction or one harness call. -/
inductive Action where
  | transaction (word : TransactionWord)
  | call (c : HostCall)
  deriving DecidableEq, Repr

/-- The request of a line: `encode x` is op = 1, a = x; `decode h` is op = 0, a = zext_64(h) (R85); the others are harness calls (R86). -/
def Line.assemble : Line → Except Refusal Action
  | .encode x =>
    match x.bits? with
    | some a => .ok (.transaction (transactionWord 1#1 a))
    | none => .error .literalOutsideSyntax
  | .decode digits =>
    match literal16Bits? digits with
    | some h => .ok (.transaction (transactionWord 0#1 (h.setWidth 64)))
    | none => .error .literalOutsideSyntax
  | .new array length => .ok (.call (.construct array length))
  | .set array index x =>
    match x.bits? with
    | some a => .ok (.call (.set array index a))
    | none => .error .literalOutsideSyntax
  | .get array index => .ok (.call (.get array index))
  | .len array => .ok (.call (.length array))
  | .bytes array => .ok (.call (.byteLength array))

/-- What a request comes to; only a line can be refused here. -/
def Request.action : Request → Except Refusal Action
  | .transaction w => .ok (.transaction w)
  | .call c => .ok (.call c)
  | .line l => l.assemble

end Sys2Proof.Machine
end

