-- ==== Sys2Proof/Machine/Fetch.lean ====
section
/-!
DEFINITION. How the next request is taken up. Nothing is fetched from memory and there is no program counter (R31, R63): the host
presents requests one at a time in its own order, the order of `pending` (log 2).
-/

namespace Sys2Proof.Machine

/-- What there is to do next, with the state in which it is done. -/
inductive Fetched where
  /-- The host presents nothing. -/
  | idle
  /-- A transaction: its instruction. -/
  | transaction (i : Instr) (s : State)
  /-- A harness call. -/
  | call (c : HostCall) (s : State)
  /-- A line that the syntax does not admit. -/
  | refused (r : Refusal)

/-- Takes the first pending request and makes its agent the caller; a transaction word is decoded (R81). -/
def State.fetch (s : State) : Fetched :=
  match s.pending with
  | [] => .idle
  | p :: rest =>
    match p.request.action with
    | .error r => .refused r
    | .ok (.transaction w) => .transaction (decodeWord w) { s with pending := rest, caller := p.agent }
    | .ok (.call c) => .call c { s with pending := rest, caller := p.agent }

/-- The state in which the caller presents `r` before anything else that is pending. -/
def State.presentNext (s : State) (r : Request) : State :=
  { s with pending := { agent := s.caller, request := r } :: s.pending }

end Sys2Proof.Machine
end

