-- ==== Sys2Proof/Machine/Harness.lean ====
section
/-!
DEFINITION. The harness, host software that drives the units (R6, R170 to R182): one definition per call. `e` is HOST_ENDIAN (R52).
An index error is a result returned to the caller, with nothing written (R177); a refusal is a case without a meaning (R214).
-/

namespace Sys2Proof.Machine

/-- `construct(length)` (R171): `length` slots of 0x0000 under the name. It returns nothing (95 P4; log 18). It is the constructing
agent's write of the new instance; a name in use is bound to the new instance from here on (log 5, log 6). -/
def execConstruct (name : ArrayName) (length : HostNumber) (s : State) : Host.Outcome State Fault Refusal :=
  match length.toInt? with
  | none => .refused .badConstructLength
  | some n =>
    if n < 0 then .refused .badConstructLength
    else
      .next (((s.putArray name (.fresh n.toNat)).forgetAccesses name).recordAccess name true)

/-- `get(index)` (R173): the index check, then `DECODE(storage[index])`. A read (R57). -/
def execGet (e : Endian) (name : ArrayName) (index : HostNumber) (s : State) : Host.Outcome State Fault Refusal :=
  match s.openArray name (fun _ => false) with
  | .error r => .refused r
  | .ok (arr, s') =>
    match checkIndex arr index with
    | .error err => .next (s'.reply (.error err))
    | .ok i =>
      .next ((s'.issue 0#1 ((arr.slot e i).setWidth 64)).reply (.binary64 (fp16ToFp64 (arr.slot e i))))

/-- `set(index, value)` (R174): the index check, then `storage[index] <- ENCODE(value)`. A `set` that fails writes nothing (R56). -/
def execSet (e : Endian) (name : ArrayName) (index : HostNumber) (value : Double) (s : State) :
    Host.Outcome State Fault Refusal :=
  match s.openArray name (fun arr => validIndex arr index) with
  | .error r => .refused r
  | .ok (arr, s') =>
    match checkIndex arr index with
    | .error err => .next (s'.reply (.error err))
    | .ok i =>
      .next (((s'.issue 1#1 value).putArray name (arr.setSlot e i (fp64ToFp16 value))).reply .ok)

/-- `length()` (R176). -/
def execLength (name : ArrayName) (s : State) : Host.Outcome State Fault Refusal :=
  match s.openArray name (fun _ => false) with
  | .error r => .refused r
  | .ok (arr, s') => .next (s'.reply (.number arr.length))

/-- `byteLength()` (R176). -/
def execByteLength (name : ArrayName) (s : State) : Host.Outcome State Fault Refusal :=
  match s.openArray name (fun _ => false) with
  | .error r => .refused r
  | .ok (arr, s') => .next (s'.reply (.number arr.byteLength))

/-- The bulk consumer reads `count` bytes of the backing buffer (R51, R179). -/
def execReadBytes (name : ArrayName) (offset count : Nat) (s : State) : Host.Outcome State Fault Refusal :=
  match s.openArray name (fun _ => false) with
  | .error r => .refused r
  | .ok (arr, s') =>
    if offset + count ≤ arr.byteLength then .next (s'.reply (.bytes (arr.buffer.readBytes offset count)))
    else .refused .byteOutsideBuffer

/-- The bulk consumer writes bytes of the backing buffer; later `get` calls see them (R179). -/
def execWriteBytes (name : ArrayName) (offset : Nat) (bytes : List Byte) (s : State) : Host.Outcome State Fault Refusal :=
  match s.openArray name (fun _ => !bytes.isEmpty) with
  | .error r => .refused r
  | .ok (arr, s') =>
    if offset + bytes.length ≤ arr.byteLength then
      .next ((s'.putArray name { arr with buffer := arr.buffer.writeBytes offset bytes }).reply .ok)
    else .refused .byteOutsideBuffer

/-- The caller synchronises with another agent (R60, R61; log 5). It returns nothing and touches no instance. -/
def execSynchronise (partner : Agent) (s : State) : Host.Outcome State Fault Refusal :=
  .next (s.synchronise partner)

/-- One harness call. -/
def execCall (e : Endian) (c : HostCall) (s : State) : Host.Outcome State Fault Refusal :=
  match c with
  | .construct name length => execConstruct name length s
  | .get name index => execGet e name index s
  | .set name index value => execSet e name index value s
  | .length name => execLength name s
  | .byteLength name => execByteLength name s
  | .readBytes name offset count => execReadBytes name offset count s
  | .writeBytes name offset bytes => execWriteBytes name offset bytes s
  | .synchronise partner => execSynchronise partner s

end Sys2Proof.Machine
end

