-- ==== Sys2Proof/Machine/Step.lean ====
section
/-!
DEFINITION. One step: the next request, whole (R56, R231, R234: each transaction and each harness call is one atomic step).
-/

namespace Sys2Proof.Machine

/-- One step. With nothing presented nothing changes: the units have no state (R230), and nothing waits (R231) (log 3). -/
def step (s : State) : Host.Outcome State Fault Refusal :=
  match s.fetch with
  | .idle => .next s
  | .transaction i s' => exec i s'
  | .call c s' => execCall Config.hostEndian c s'
  | .refused r => .refused r

/-- The state whose next step runs the instruction of the low `nbits` bits of `w`: its word is presented next (log 2). -/
def State.withFetchWord (s : State) (nbits w : Nat) : State :=
  s.presentNext (.transaction (BitVec.ofNat 65 (w % 2 ^ nbits)))

end Sys2Proof.Machine
end

