-- ==== Sys2Proof/Machine/Transaction.lean ====
section
/-!
DEFINITION. The wrapper that joins the two units behind one operation selector (R80, R81): a pure function of the request.
-/

namespace Sys2Proof.Machine

/-- `Transaction(op, a)` (R80). -/
def transaction (op : BitVec 1) (a : Double) : BitVec 64 :=
  if op = 0#1 then fp16ToFp64 (a.extractLsb' 0 16) else (fp64ToFp16 a).setWidth 64

/-- The result of an instruction (R80, R81). -/
def resultOf : Instr → BitVec 64
  | .encode a => transaction 1#1 a
  | .decode a => transaction 0#1 a

end Sys2Proof.Machine
end

