-- ==== Sys2Proof/Machine/Clocked.lean ====
section
/-!
DEFINITION. A build that registers its ports (R234): the result of an operand appears LATENCY cycles after the operand. The machine's
step abstracts this away, as R234 says: each transaction is one atomic step, and `step` reads no latency. This file is beside it.
-/

namespace Sys2Proof.Machine

/-- The results on their way to the output port, oldest first, none where no operand was presented; as many as LATENCY. -/
abbrev Stages := List (Option (BitVec 64))

/-- The stages before the first operand: no result is on its way (log 17). -/
def Stages.empty (latency : Nat) : Stages := List.replicate latency none

/-- One clock cycle: what is presented enters, and what has been on its way for LATENCY cycles leaves. With no stages the result of
the operand presented leaves in the same cycle (LATENCY = 0 is purely combinational, D3). -/
def Stages.cycle (st : Stages) (presented : Option Instr) : Option (BitVec 64) × Stages :=
  match st ++ [presented.map resultOf] with
  | [] => (none, [])
  | out :: rest => (out, rest)

/-- The outputs of the cycles in which `presented` is presented, one a cycle. -/
def Stages.outputs (st : Stages) : List (Option Instr) → List (Option (BitVec 64))
  | [] => []
  | p :: ps => (st.cycle p).1 :: Stages.outputs (st.cycle p).2 ps

/-- The clocked build of this hardware (R234), from its first cycle on. -/
def clockedOutputs (presented : List (Option Instr)) : List (Option (BitVec 64)) :=
  (Stages.empty Config.latency).outputs presented

end Sys2Proof.Machine
end

