-- ==== Sys2Proof/Machine/Values.lean ====
section
/-!
DEFINITION. The values of the patterns (R19, R71, R73, R74). No operation computes with them: they say what the bits mean, and the
spec's properties of ENCODE and DECODE are stated through them.
-/

namespace Sys2Proof.Machine

/-- A *value* (R19): `Fin(s, q)`, `Inf(s)` or `NaN`. The magnitude `q` of a value of a pattern is never negative. -/
inductive Value where
  /-- Sign bit `s` and magnitude `q`; `fin 1 0` is -0. -/
  | fin (s : BitVec 1) (q : ℚ)
  | inf (s : BitVec 1)
  | nan
  deriving DecidableEq, Repr

/-- The magnitude of a finite value (R19). -/
def Value.magnitude : Value → Option ℚ
  | .fin _ q => some q
  | .inf _ => none
  | .nan => none

/-- The real number `(-1)^s * q` of a finite value (R19). -/
def Value.real : Value → Option ℚ
  | .fin s q => some (if s = 1#1 then -q else q)
  | .inf _ => none
  | .nan => none

/-- `val16(h)` (R71). -/
def val16 (h : Half) : Value :=
  if exp5 h = 0 then .fin (sign16 h) ((frac10 h : ℚ) * 2 ^ (-24 : ℤ))
  else if exp5 h = 31 then (if frac10 h = 0 then .inf (sign16 h) else .nan)
  else .fin (sign16 h) ((1024 + frac10 h : ℚ) * 2 ^ ((exp5 h : ℤ) - 25))

/-- `val32(f)` (R73; its two value formulas are the spec's general knowledge, log 11). -/
def val32 (f : Single) : Value :=
  if exp8 f = 0 then .fin (sign32 f) ((frac23 f : ℚ) * 2 ^ (-149 : ℤ))
  else if exp8 f = 255 then (if frac23 f = 0 then .inf (sign32 f) else .nan)
  else .fin (sign32 f) ((2 ^ 23 + frac23 f : ℚ) * 2 ^ ((exp8 f : ℤ) - 150))

/-- `val64(a)` (R74; the binary64 layout and value table are the spec's general knowledge, log 11). -/
def val64 (a : Double) : Value :=
  if exp11 a = 0 then .fin (sign64 a) ((frac52 a : ℚ) * 2 ^ (-1074 : ℤ))
  else if exp11 a = 2047 then (if frac52 a = 0 then .inf (sign64 a) else .nan)
  else .fin (sign64 a) ((2 ^ 52 + frac52 a : ℚ) * 2 ^ ((exp11 a : ℤ) - 1075))

end Sys2Proof.Machine
end

