-- ==== Sys2Proof/Safety.lean ====
section
/-!
DEFINITION. What counts as a good state and a good run, in the terms the claims use.
No run can fault (R214: the type Fault is empty); a run is safe when no step is refused.
-/

namespace Sys2Proof.Machine

/-- An instance whose buffer is in canonical form and lies inside its 2 * length bytes (R51). -/
abbrev HalfArray.Inv (arr : HalfArray) : Prop :=
  arr.buffer.wf ∧ ∀ c ∈ arr.buffer, c.1 < arr.byteLength

/-- No two recorded accesses race (R60): where two agents accessed one instance and one of them wrote, a synchronisation ordered the
earlier access before the later agent. -/
abbrev RaceFree (accesses : List Access) : Prop :=
  accesses.Pairwise (fun x y =>
    x.array = y.array → x.agent ≠ y.agent → x.writes = true ∨ y.writes = true → y.agent ∈ x.orderedBefore)

/-- The invariant of the machine: names are bound once, every buffer is canonical and inside its instance, every access is to a
constructed instance (R232), and the execution so far is one that R60 admits. -/
abbrev State.Inv (s : State) : Prop :=
  (s.arrays.map Prod.fst).Nodup ∧ (∀ p ∈ s.arrays, p.2.Inv) ∧
    (∀ x ∈ s.accesses, x.array ∈ s.arrays.map Prod.fst) ∧ RaceFree s.accesses

/-- The next step is refused by no rule. -/
abbrev State.Safe (s : State) : Prop := ∃ t, step s = .next t

/-- In every state the transaction `encode a` completes with the result `zext_64(h)` and changes nothing else. -/
def Encodes (a : Double) (h : Half) : Prop :=
  ∀ s : State, exec (.encode a) s =
    .next { s with
      issued := s.issued ++ [transactionWord 1#1 a]
      results := s.results ++ [(s.caller, .word (h.setWidth 64))] }

/-- In every state, and whatever stands in a[63:16], the transaction `decode` of the half pattern `h` completes with the result `d`
and changes nothing else. -/
def Decodes (h : Half) (d : Double) : Prop :=
  ∀ (a : Double) (s : State), a.extractLsb' 0 16 = h → exec (.decode a) s =
    .next { s with
      issued := s.issued ++ [transactionWord 0#1 a]
      results := s.results ++ [(s.caller, .word d)] }

/-- `y` is the magnitude of the half pattern `h`, of sign `s`, and no half of that sign is nearer to `v`; if another is as near, the
fraction of `h` is even (R21, round to nearest, ties to even). -/
def NearestHalf (s : BitVec 1) (v : ℚ) (h : Half) (y : ℚ) : Prop :=
  val16 h = .fin s y ∧
    ∀ (h' : Half) (y' : ℚ), val16 h' = .fin s y' →
      |y - v| ≤ |y' - v| ∧ (|y - v| = |y' - v| → y' ≠ y → frac10 h % 2 = 0)

/-- The same for binary32 patterns. -/
def NearestSingle (s : BitVec 1) (v : ℚ) (f : Single) (y : ℚ) : Prop :=
  val32 f = .fin s y ∧
    ∀ (f' : Single) (y' : ℚ), val32 f' = .fin s y' →
      |y - v| ≤ |y' - v| ∧ (|y - v| = |y' - v| → y' ≠ y → frac23 f % 2 = 0)

/-- The instance of a name and what its state says about the caller's access: constructed (R232), and no race (R60). -/
def State.CanAccess (s : State) (name : ArrayName) (writes : Bool) (arr : HalfArray) : Prop :=
  findArray s.arrays name = some arr ∧ s.races name writes = false

/-- Calls of agents, one after another, each agent the caller of its own. -/
def performAll (e : Endian) : List (Agent × HostCall) → State → Host.Outcome State Fault Refusal
  | [], s => .next s
  | (g, c) :: rest, s =>
    match execCall e c { s with caller := g } with
    | .next t => performAll e rest t
    | .fault f => .fault f
    | .refused r => .refused r

/-- What R180 says slot `i` of the instance `name` holds after one more call, from the length and the content before it; no content
(none) after a byte-view write that covers the slot. -/
def expectedAfter (name : ArrayName) (i : Nat) (before : Nat × Option Half) : HostCall → Nat × Option Half
  | .construct array n =>
    if array = name then (n.toInt?.getD 0 |>.toNat, some 0x0000#16) else before
  | .get _ _ => before
  | .set array index value =>
    if array = name ∧ index.toInt? = some (i : Int) ∧ i < before.1 then (before.1, some (fp64ToFp16 value)) else before
  | .length _ => before
  | .byteLength _ => before
  | .readBytes _ _ _ => before
  | .writeBytes array offset bytes =>
    if array = name ∧ bytes ≠ [] ∧ offset < 2 * i + 2 ∧ 2 * i < offset + bytes.length then (before.1, none) else before
  | .synchronise _ => before

/-- What R180 says slot `i` of `name` holds after these calls. -/
def expectedSlot (name : ArrayName) (i : Nat) (before : Nat × Option Half) (calls : List (Agent × HostCall)) :
    Nat × Option Half :=
  calls.foldl (fun b c => expectedAfter name i b c.2) before

end Sys2Proof.Machine
end

