-- ==== Sys2Proof/WellFormed.lean ====
section
/-!
DEFINITION. What is well formed. Every instruction is: both operations take every operand (R79, R82), and the widths are in the
types. What can be ill formed is what the host writes: a literal outside R85 and a length outside R171's contract.
-/

namespace Sys2Proof

/-- Every instruction is well formed (R79, R82): no operand is reserved, illegal or undefined. -/
def Instr.wellFormed : Instr → Bool
  | .encode _ => true
  | .decode _ => true

namespace Machine

/-- A literal that R85 admits. -/
def Literal64.wellFormed (x : Literal64) : Bool := x.bits?.isSome

/-- A length within R171's contract: a non-negative integer. -/
def HostNumber.isLength (n : HostNumber) : Bool :=
  match n.toInt? with
  | some k => decide (0 ≤ k)
  | none => false

/-- A call within its contract: only `construct` has one (R171); an invalid index is an error value, not an ill-formed call (R172). -/
def HostCall.wellFormed : HostCall → Bool
  | .construct _ n => n.isLength
  | .get _ _ => true
  | .set _ _ _ => true
  | .length _ => true
  | .byteLength _ => true
  | .readBytes _ _ _ => true
  | .writeBytes _ _ _ => true
  | .synchronise _ => true

/-- A line of R85 and R86 whose operands the syntax and R171 admit. -/
def Line.wellFormed : Line → Bool
  | .encode x => x.wellFormed
  | .decode digits => (literal16Bits? digits).isSome
  | .new _ n => n.isLength
  | .set _ _ x => x.wellFormed
  | .get _ _ => true
  | .len _ => true
  | .bytes _ => true

/-- A request that is not refused for its own form. -/
def Request.wellFormed : Request → Bool
  | .transaction _ => true
  | .call c => c.wellFormed
  | .line l => l.wellFormed

end Machine

end Sys2Proof
end

