-- ==== Sys2Proof/Certificates/Slice0/Obligations.lean ====
section
/-!
DEFINITION. The statements for the provers, from the numbered rules of spec/.
`Encodes a h` and `Decodes h d` (Safety.lean) say that the transaction ANSWERS A NEXT STATE, in every state, with that result and with
nothing else of the state changed: a statement through them is also that operation's completion and frame.
-/

open Sys2Proof Sys2Proof.Machine

/-! ## The transaction word -/

/-- R80 to R82 (D8; the places of the two fields in one number are log 1): no bit of a transaction word is dropped, in either
direction. -/
def Obligations.WordAndInstrAgree : Prop :=
  (∀ i : Instr, decodeWord (encodeInstr i) = i ∧ decodeNumber (encodeInstr i).toNat = .ok i) ∧
  (∀ w : TransactionWord, encodeInstr (decodeWord w) = w)

/-- R81, R82: `op` alone selects, and every value of the two fields is a transaction. The MODEL'S CHOICE (log 1, DESIGN CHOICE): one
65-bit number with `op` at bit 0 and `a` above it, so that `op` is the number's parity, `a` is w / 2, and a wider number is no
transaction and is rejected by name. -/
def Obligations.EveryWordIsATransaction : Prop :=
  ∀ w : Nat,
    (w < 2 ^ 65 → w % 2 = 1 → decodeNumber w = .ok (.encode (BitVec.ofNat 64 (w / 2)))) ∧
    (w < 2 ^ 65 → w % 2 = 0 → decodeNumber w = .ok (.decode (BitVec.ofNat 64 (w / 2)))) ∧
    (2 ^ 65 ≤ w → decodeNumber w = .error .widerThanTransactionWord)

/-- R81: the words of the table's two rows, and two words with operands written out bit by bit. The places of `op` and `a` in one
number are the MODEL'S CHOICE (log 1, DESIGN CHOICE). -/
def Obligations.WrittenWordsDecode : Prop :=
  decodeTableWord 8 1 = some (.encode 0x0000000000000000#64) ∧
  decodeTableWord 8 0 = some (.decode 0x0000000000000000#64) ∧
  decodeWord 0b00111111111110000000000000000000000000000000000000000000000000001#65 = .encode 0x3FF8000000000000#64 ∧
  decodeWord 0b11111111111111111111111111111111111111111111111101111100000000010#65 = .decode 0xFFFFFFFFFFFF7C01#64

/-- R80, R81: what a transaction word gives, whatever the state: op = 0 is DECODE of a[15:0]; op = 1 is ENCODE of a[63:0], and then
r[63:16] = 0. -/
def Obligations.TransactionGivesUnitResult : Prop :=
  ∀ (w : TransactionWord) (s : State), ∃ r : BitVec 64,
    exec (decodeWord w) s =
      .next { s with issued := s.issued ++ [w], results := s.results ++ [(s.caller, .word r)] } ∧
    (transactionOp w = 0#1 → r = fp16ToFp64 ((transactionOperand w).extractLsb' 0 16)) ∧
    (transactionOp w = 1#1 →
      r.extractLsb' 0 16 = fp64ToFp16 (transactionOperand w) ∧ r.extractLsb' 16 48 = 0#48)

/-- R82: a[63:16] of a DECODE transaction does not change its result. -/
def Obligations.DecodeIgnoresUpperBits : Prop :=
  ∀ a b : Double, a.extractLsb' 0 16 = b.extractLsb' 0 16 → ∀ s : State, ∃ r,
    exec (.decode a) s =
      .next { s with issued := s.issued ++ [transactionWord 0#1 a], results := s.results ++ [(s.caller, .word r)] } ∧
    exec (.decode b) s =
      .next { s with issued := s.issued ++ [transactionWord 0#1 b], results := s.results ++ [(s.caller, .word r)] }

/-- R79: ENCODE is defined for all 2^64 values of `a` and DECODE for all 2^16 values of `h`; no operand makes a unit fault or hold. -/
def Obligations.EveryOperandCompletes : Prop :=
  (∀ a : Double, ∃ h : Half, Encodes a h) ∧ (∀ h : Half, ∃ d : Double, Decodes h d)

/-- R35: the result is a function of the operand alone: one result for each transaction, in whatever state and after whatever history. -/
def Obligations.ResultIsFunctionOfOperand : Prop :=
  ∀ i : Instr, ∃ r : BitVec 64, ∀ s : State, ∃ t : State,
    exec i s = .next t ∧ t.results = s.results ++ [(s.caller, .word r)] ∧
    t.pending = s.pending ∧ t.caller = s.caller ∧ t.arrays = s.arrays ∧ t.accesses = s.accesses

/-! ## The step -/

/-- A step runs the decoded instruction (R31, R81; that the host's queue is how a transaction is presented is log 2). -/
def Obligations.StepRunsPresentedTransaction : Prop :=
  (∀ (s : State) (g : Agent) (w : TransactionWord) (rest : List Presented),
    s.pending = { agent := g, request := .transaction w } :: rest →
      step s = exec (decodeWord w) { s with pending := rest, caller := g }) ∧
  (∀ (s : State) (nbits w : Nat) (i : Instr),
    decodeTableWord nbits w = some i → step (s.withFetchWord nbits w) = exec i s)

/-- A step performs the presented harness call, under the host's byte order (R6, R53). That the head of the host's queue `pending` is
the request presented next is the MODEL'S CHOICE (log 2, DESIGN CHOICE). -/
def Obligations.StepPerformsPresentedCall : Prop :=
  ∀ (s : State) (g : Agent) (c : HostCall) (rest : List Presented),
    s.pending = { agent := g, request := .call c } :: rest →
      step s = execCall Config.hostEndian c { s with pending := rest, caller := g }

/-- The model's choice (log 3): with nothing presented, a step changes nothing. -/
def Obligations.NothingPresentedChangesNothing : Prop :=
  ∀ s : State, s.pending = [] → step s = .next s

/-- R36, R211, R231: any number of agents, in any order of their transactions: every transaction completes, each agent gets the result
of its own operand, and nothing of the harness changes. That agents at once are one order of their requests is the model's reading
(log 16, DEDUCED), and that this order is the queue `pending` is the MODEL'S CHOICE (log 2, DESIGN CHOICE). -/
def Obligations.ConcurrentTransactionsAllComplete : Prop :=
  ∀ (s : State) (ps : List (Agent × TransactionWord)),
    s.pending = ps.map (fun p => { agent := p.1, request := .transaction p.2 }) →
    ∃ t : State, Host.Core.run Sys2Proof.core ps.length s = .next t ∧
      t.pending = [] ∧ t.arrays = s.arrays ∧ t.accesses = s.accesses ∧
      t.issued = s.issued ++ ps.map Prod.snd ∧
      t.results = s.results ++
        ps.map (fun p => (p.1, .word (transaction (transactionOp p.2) (transactionOperand p.2))))

/-- Every step keeps the invariant of the machine (Safety.lean): names bound once, buffers canonical and inside their instances (R51),
accesses to constructed instances only (R232), and no race admitted (R60). Races are those of the model's own record of accesses and
synchronisations, the MODEL'S CHOICE (log 5, DESIGN CHOICE). -/
def Obligations.StepKeepsInv : Prop :=
  ∀ s t : State, s.Inv → step s = .next t → t.Inv

/-- The machine is in that invariant after power-on (R38, R232). -/
def Obligations.ResetMeetsInv : Prop := State.reset.Inv

/-- R38, R232: after power-on nothing is held and no instance exists. -/
def Obligations.ResetHoldsNothing : Prop :=
  State.reset.arrays = [] ∧ State.reset.accesses = [] ∧ ∀ name : ArrayName, findArray State.reset.arrays name = none

/-! ## Rounding -/

/-- R17 as a property: RoundRNE(m, k) is the integer nearest to m / 2^k, and at a tie the even one; and it is monotone. -/
def Obligations.RoundRNEIsNearestEven : Prop :=
  (∀ m k : Nat,
    2 * |((roundRNE m k * 2 ^ k : Nat) : Int) - m| ≤ 2 ^ k ∧
    (2 * |((roundRNE m k * 2 ^ k : Nat) : Int) - m| = 2 ^ k → roundRNE m k % 2 = 0)) ∧
  (∀ m m' k : Nat, m ≤ m' → roundRNE m k ≤ roundRNE m' k)

/-! ## ENCODE

Where a rule gives the magnitudes a path applies to, they are magnitudes of val32 (R73, whose two value formulas are the spec's general
knowledge, log 11). -/

/-- R105: `halfSign = sign << 15` is bit 15 of every result of stage 2, on every path. -/
def Obligations.HalfSignOnEveryPath : Prop :=
  ∀ f : Single, halfSign f = (sign32 f).setWidth 16 <<< 15 ∧ sign16 (halfFromSingle f) = sign32 f

/-- R106: NaN and infinity, in stage 2 and for the operand. That a NaN operand's sign is kept is the spec's choice (D5; log 10). -/
def Obligations.EncodeNaNAndInfinity : Prop :=
  (∀ f : Single, exp8 f = 0xFF →
    (frac23 f ≠ 0 → halfFromSingle f = halfSign f ||| 0x7E00#16) ∧
    (frac23 f = 0 → halfFromSingle f = halfSign f ||| 0x7C00#16)) ∧
  (∀ a : Double, exp11 a = 0x7FF →
    (frac52 a ≠ 0 → Encodes a (if sign64 a = 0#1 then 0x7E00#16 else 0xFE00#16)) ∧
    (frac52 a = 0 → Encodes a (if sign64 a = 0#1 then 0x7C00#16 else 0xFC00#16)))

/-- R108: newExp ≥ 31 before rounding is exp8 from 143 to 254, and is the magnitudes from 2^16 up: infinity. -/
def Obligations.OverflowBeforeRounding : Prop :=
  ∀ f : Single, exp8 f ≤ 254 → (143 ≤ exp8 f ↔ 31 ≤ rebias f) ∧
    (∃ y : ℚ, val32 f = .fin (sign32 f) y ∧ (143 ≤ exp8 f ↔ 2 ^ 16 ≤ y)) ∧
    (143 ≤ exp8 f → halfFromSingle f = halfSign f ||| 0x7C00#16)

/-- R109: newExp < -10 is exp8 from 0 to 101, and is every binary32 zero and subnormal and every normal magnitude below 2^-25: the
signed zero. -/
def Obligations.UnderflowToSignedZero : Prop :=
  (∀ f : Single, exp8 f ≤ 254 → (exp8 f ≤ 101 ↔ rebias f < -10) ∧
    (∃ y : ℚ, val32 f = .fin (sign32 f) y ∧ (exp8 f ≤ 101 ↔ y < 2 ^ (-25 : ℤ))) ∧
    (exp8 f ≤ 101 → halfFromSingle f = halfSign f)) ∧
  Encodes 0x0000000000000000#64 0x0000#16 ∧ Encodes 0x8000000000000000#64 0x8000#16

/-- R110, R111: the subnormal path, -10 ≤ newExp ≤ 0, is exp8 from 102 to 112, and is the magnitudes from 2^-25 up to but not
including 2^-14: the rounded mantissa with its carry kept, its bounds, and exactly when the carry gives the smallest normal. -/
def Obligations.SubnormalPathKeepsCarry : Prop :=
  ∀ f : Single, exp8 f ≤ 254 →
    ((102 ≤ exp8 f ∧ exp8 f ≤ 112) ↔ (-10 ≤ rebias f ∧ rebias f ≤ 0)) ∧
    (∃ y : ℚ, val32 f = .fin (sign32 f) y ∧
      ((102 ≤ exp8 f ∧ exp8 f ≤ 112) ↔ (2 ^ (-25 : ℤ) ≤ y ∧ y < 2 ^ (-14 : ℤ)))) ∧
    (102 ≤ exp8 f → exp8 f ≤ 112 →
      let shift := 126 - exp8 f
      let mantissa := 2 ^ 23 + frac23 f
      let q := roundRNE mantissa shift
      (14 - rebias f = shift ∧ 14 ≤ shift ∧ shift ≤ 24) ∧
      halfFromSingle f = halfSign f ||| BitVec.ofNat 16 q ∧
      mantissa / 2 ^ shift < 2 ^ (24 - shift) ∧ q ≤ 2 ^ (24 - shift) ∧
      (q = 0x400 ↔ exp8 f = 112 ∧ 0xFFE000 ≤ mantissa) ∧
      (exp8 f < 112 → q ≤ 0x200) ∧
      ∃ y : ℚ, val32 f = .fin (sign32 f) y ∧ (q = 0x400 ↔ 2 ^ (-14 : ℤ) - 2 ^ (-25 : ℤ) ≤ y))

/-- R112, R113, R114: the normal path, exp8 from 113 to 142: 13 bits rounded off, the carry into the exponent, and infinity where
that reaches 31. -/
def Obligations.NormalPathRoundsAndCarries : Prop :=
  ∀ f : Single, 113 ≤ exp8 f → exp8 f ≤ 142 →
    let hm := roundRNE (frac23 f) 13
    hm ≤ 0x400 ∧ (hm = 0x400 ↔ 0x7FF000 ≤ frac23 f) ∧
    (hm ≠ 0x400 → halfFromSingle f = pack16 (sign32 f) (exp8 f - 112) hm) ∧
    (hm = 0x400 → exp8 f ≤ 141 → halfFromSingle f = pack16 (sign32 f) (exp8 f - 111) 0) ∧
    (hm = 0x400 → exp8 f = 142 → halfFromSingle f = halfSign f ||| 0x7C00#16) ∧
    ∃ y : ℚ, val32 f = .fin (sign32 f) y ∧ y < 2 ^ 16 ∧ (hm = 0x400 ∧ exp8 f = 142 ↔ 65520 ≤ y)

/-- R102 (the spec's reading of IEEE narrowing, D4; log 11): Narrow is the nearest binary32 pattern, ties to even, and infinity from
2^128 - 2^103 up, with the sign kept. -/
def Obligations.NarrowIsNearestSingle : Prop :=
  ∀ (a : Double) (s : BitVec 1) (v : ℚ), val64 a = .fin s v →
    (2 ^ 128 - 2 ^ 103 ≤ v → narrow a = pack32 s 255 0) ∧
    (v < 2 ^ 128 - 2 ^ 103 → ∃ y : ℚ, NearestSingle s v (narrow a) y)

/-- R103 (D4, D5; log 10): a NaN narrows to a NaN of its sign whose fraction has its top bit set, and only a NaN does. -/
def Obligations.NarrowKeepsNaN : Prop :=
  ∀ a : Double,
    (isNaN64 a = true ↔ exp8 (narrow a) = 0xFF ∧ frac23 (narrow a) ≠ 0) ∧
    (isNaN64 a = true → sign32 (narrow a) = sign64 a ∧ 2 ^ 22 ≤ frac23 (narrow a))

/-- R120: the sign of ENCODE's result is a[63] for every operand, and inverting a[63] inverts h[15] and nothing else. -/
def Obligations.EncodeSignSymmetry : Prop :=
  ∀ a : Double, ∃ h : Half, Encodes a h ∧ sign16 h = sign64 a ∧
    Encodes (a ^^^ 0x8000000000000000#64) (h ^^^ 0x8000#16)

/-- R118: on operands that binary32 can represent, ENCODE is correctly rounded: the nearest half, ties to even, and infinity from
65520 up. -/
def Obligations.EncodeIsNearestOnSingles : Prop :=
  ∀ (a : Double) (f : Single) (s : BitVec 1) (v : ℚ), val64 a = .fin s v → val32 f = .fin s v →
    (65520 ≤ v → Encodes a (pack16 s 31 0)) ∧
    (v < 65520 → ∃ (h : Half) (y : ℚ), Encodes a h ∧ NearestHalf s v h y)

/-- R115: a binary16 value other than NaN encodes to its own pattern, sign of zero included. -/
def Obligations.EncodeIsExactOnHalves : Prop :=
  ∀ (a : Double) (h : Half), isNaN16 h = false → val64 a = val16 h → Encodes a h

/-- R116: the overflow threshold, on the operand. -/
def Obligations.OverflowThreshold : Prop :=
  ∀ (a : Double) (s : BitVec 1) (v : ℚ), val64 a = .fin s v →
    (65520 - 2 ^ (-9 : ℤ) ≤ v → Encodes a (pack16 s 31 0)) ∧
    (65504 ≤ v → v < 65520 - 2 ^ (-9 : ℤ) → Encodes a (pack16 s 30 0x3FF))

/-- R117: the underflow threshold, on the operand. -/
def Obligations.UnderflowThreshold : Prop :=
  ∀ (a : Double) (s : BitVec 1) (v : ℚ), val64 a = .fin s v →
    (v ≤ 2 ^ (-25 : ℤ) + 2 ^ (-49 : ℤ) → Encodes a (pack16 s 0 0)) ∧
    (2 ^ (-25 : ℤ) + 2 ^ (-49 : ℤ) < v → v ≤ 2 ^ (-24 : ℤ) → Encodes a (pack16 s 0 1))

/-- R119: two roundings differ from one only where Narrow lands exactly on a midpoint of two halves and the operand is not on it; and
there is such an operand. -/
def Obligations.DoubleRoundingOnlyAtMidpoints : Prop :=
  (∀ (a : Double) (s : BitVec 1) (v w : ℚ), val64 a = .fin s v → val32 (narrow a) = .fin s w → w < 65520 →
    ∃ (h : Half) (y : ℚ), Encodes a h ∧ val16 h = .fin s y ∧
      (NearestHalf s v h y ∨
        (w ≠ v ∧ ∃ (h' : Half) (y' : ℚ), val16 h' = .fin s y' ∧ y' ≠ y ∧ 2 * w = y + y' ∧ |y' - v| < |y - v|))) ∧
  (∃ (a : Double) (v : ℚ), val64 a = .fin 0#1 v ∧ Encodes a 0x3C00#16 ∧ ¬ NearestHalf 0#1 v 0x3C00#16 1)

/-- R122: the error bound, one binary16 ulp at the operand, with the exponent clamped at -14. -/
def Obligations.EncodeErrorBound : Prop :=
  ∀ (a : Double) (s : BitVec 1) (v : ℚ), val64 a = .fin s v → v < 65520 - 2 ^ (-9 : ℤ) →
    ∃ (h : Half) (y : ℚ), Encodes a h ∧ val16 h = .fin s y ∧ (v = 0 → y = 0) ∧
      ∀ E : ℤ, (2 : ℚ) ^ E ≤ v → v < 2 ^ (E + 1) → |y - v| ≤ 2 ^ (max E (-14) - 10)

/-- R119 ("both roundings are monotone"): a larger magnitude never encodes to a smaller one, infinity included. -/
def Obligations.EncodeIsMonotone : Prop :=
  ∀ (a b : Double) (s : BitVec 1) (v w : ℚ), val64 a = .fin s v → val64 b = .fin s w → v ≤ w →
    ∃ h k : Half, Encodes a h ∧ Encodes b k ∧ h.toNat ≤ k.toNat

/-! ## DECODE

The value of a binary64 result is val64 (R74, the spec's general knowledge, log 11). -/

/-- R142: the zeros, with their sign. -/
def Obligations.DecodeZeroKeepsSign : Prop :=
  (∀ h : Half, exp5 h = 0 → frac10 h = 0 → Decodes h (sign16 h ++ 0#63)) ∧
  Decodes 0x0000#16 0x0000000000000000#64 ∧ Decodes 0x8000#16 0x8000000000000000#64

/-- R143: a subnormal's value is (frac10 / 1024) * 2^-14, exactly, with no correction. -/
def Obligations.DecodeSubnormalValue : Prop :=
  ∀ h : Half, exp5 h = 0 → frac10 h ≠ 0 →
    ∃ (d : Double) (q : ℚ), Decodes h d ∧ val64 d = .fin (sign16 h) q ∧
      q = (frac10 h : ℚ) / 1024 * 2 ^ (-14 : ℤ) ∧ q = (frac10 h : ℚ) * 2 ^ (-24 : ℤ) ∧
      2 ^ (-24 : ℤ) ≤ q ∧ q ≤ 1023 * 2 ^ (-24 : ℤ)

/-- R145: a normal's value is (1 + frac10 / 1024) * 2^(exp5 - 15). -/
def Obligations.DecodeNormalValue : Prop :=
  ∀ h : Half, 1 ≤ exp5 h → exp5 h ≤ 30 →
    ∃ d : Double, Decodes h d ∧
      val64 d = .fin (sign16 h) ((1 + (frac10 h : ℚ) / 1024) * 2 ^ ((exp5 h : ℤ) - 15))

/-- R144, R146: the binary64 fields of a subnormal and of a normal. -/
def Obligations.DecodeFields : Prop :=
  ∀ h : Half,
    (∀ p : Nat, exp5 h = 0 → 2 ^ p ≤ frac10 h → frac10 h < 2 ^ (p + 1) →
      ∃ d : Double, Decodes h d ∧ sign64 d = sign16 h ∧ exp11 d = p + 999 ∧
        frac52 d = (frac10 h - 2 ^ p) * 2 ^ (52 - p)) ∧
    (1 ≤ exp5 h → exp5 h ≤ 30 →
      ∃ d : Double, Decodes h d ∧ sign64 d = sign16 h ∧ exp11 d = exp5 h + 1008 ∧ frac52 d = frac10 h * 2 ^ 42)

/-- R148: the infinities, with their sign. -/
def Obligations.DecodeInfinity : Prop :=
  (∀ h : Half, exp5 h = 0x1F → frac10 h = 0 → ∃ d : Double, Decodes h d ∧ val64 d = .inf (sign16 h)) ∧
  Decodes 0x7C00#16 0x7FF0000000000000#64 ∧ Decodes 0xFC00#16 0xFFF0000000000000#64

/-- R147 (the spec's choice of the bits, D6; log 10): every NaN gives the one quiet NaN of its sign; the payload is not carried. -/
def Obligations.DecodeNaN : Prop :=
  ∀ h : Half, isNaN16 h = true →
    Decodes h (if sign16 h = 0#1 then 0x7FF8000000000000#64 else 0xFFF8000000000000#64)

/-- R149: d[63] = h[15] for every input (for a NaN, by D6). -/
def Obligations.DecodeSignIsInputSign : Prop :=
  ∀ h : Half, ∃ d : Double, Decodes h d ∧ sign64 d = sign16 h

/-- R150: DECODE is exact: the value of the result is the value of the input, sign of zero included. -/
def Obligations.DecodeIsExact : Prop :=
  ∀ h : Half, isNaN16 h = false → ∃ d : Double, Decodes h d ∧ val64 d = val16 h

/-- R152: DECODE is injective on the patterns that are not NaN, and its outputs are the binary64 patterns of binary16 values and the
two NaNs. -/
def Obligations.DecodeInjectiveAndImage : Prop :=
  (∀ h k : Half, isNaN16 h = false → isNaN16 k = false → fp16ToFp64 h = fp16ToFp64 k → h = k) ∧
  (∀ d : Double, (∃ h : Half, fp16ToFp64 h = d) ↔
    ((∃ h : Half, isNaN16 h = false ∧ val64 d = val16 h) ∨
      d = 0x7FF8000000000000#64 ∨ d = 0xFFF8000000000000#64))

/-- R151: the round trip from binary16 through both units. -/
def Obligations.RoundTripFromHalf : Prop :=
  ∀ h : Half, ∃ d : Double, Decodes h d ∧
    (isNaN16 h = false → Encodes d h) ∧ (isNaN16 h = true → Encodes d (pack16 (sign16 h) 31 0x200))

/-! ## The harness -/

/-- R39, R171: on construction `length` holds the constructed length and every slot 0x0000. The rest is the model's: that `construct`
returns no result (log 18, DEDUCED), that a name in use stands for the new instance (log 6, DESIGN CHOICE), that a length such as 8.0
is the natural number it equals (log 14, DEDUCED), and the record of accesses (log 5, DESIGN CHOICE), of which nothing is said. -/
def Obligations.ConstructGivesZeroSlots : Prop :=
  ∀ (e : Endian) (s : State) (name : ArrayName) (n : HostNumber) (k : Nat), n.toInt? = some (k : Int) →
    ∃ (t : State) (arr : HalfArray), execCall e (.construct name n) s = .next t ∧
      findArray t.arrays name = some arr ∧ arr.length = k ∧ (∀ i : Nat, arr.slot e i = 0x0000#16) ∧
      (∀ b : Nat, arr.buffer.readByte b = 0x00#8) ∧
      (∀ other : ArrayName, other ≠ name → findArray t.arrays other = findArray s.arrays other) ∧
      t.pending = s.pending ∧ t.caller = s.caller ∧ t.issued = s.issued ∧ t.results = s.results

/-- R171, R214 (D14): a negative or non-integer length is refused, and only that. -/
def Obligations.ConstructRefusesBadLength : Prop :=
  ∀ (e : Endian) (s : State) (name : ArrayName) (n : HostNumber),
    execCall e (.construct name n) s = .refused .badConstructLength ↔ ∀ k : Nat, n.toInt? ≠ some (k : Int)

/-- R173: `get`: InvalidIndex, IndexOutOfRange, or DECODE of the slot; no state of the harness changes either way. -/
def Obligations.GetAnswersDecodedSlot : Prop :=
  ∀ (e : Endian) (s : State) (name : ArrayName) (index : HostNumber) (arr : HalfArray), s.CanAccess name false arr →
    ∃ (t : State) (r : Reply), execCall e (.get name index) s = .next t ∧
      t.arrays = s.arrays ∧ t.results = s.results ++ [(s.caller, r)] ∧ t.pending = s.pending ∧ t.caller = s.caller ∧
      (index.toInt? = none → r = .error .invalidIndex ∧ t.issued = s.issued) ∧
      (∀ i : Int, index.toInt? = some i → i < 0 ∨ (arr.length : Int) ≤ i →
        r = .error .indexOutOfRange ∧ t.issued = s.issued) ∧
      (∀ i : Nat, index.toInt? = some (i : Int) → i < arr.length →
        r = .binary64 (fp16ToFp64 (arr.slot e i)) ∧
        t.issued = s.issued ++ [transactionWord 0#1 ((arr.slot e i).setWidth 64)])

/-- R174 (with R55 and R56): a `set` with a valid index stores ENCODE of the value at the index, as two bytes at offsets 2i and 2i+1
and nowhere else; with any other index it answers the index check's error and writes nothing. -/
def Obligations.SetStoresEncodedValue : Prop :=
  ∀ (e : Endian) (s : State) (name : ArrayName) (index : HostNumber) (value : Double) (arr : HalfArray), arr.Inv →
    (∀ i : Nat, s.CanAccess name true arr → index.toInt? = some (i : Int) → i < arr.length →
      ∃ (t : State) (arr' : HalfArray), execCall e (.set name index value) s = .next t ∧
        findArray t.arrays name = some arr' ∧ arr'.length = arr.length ∧
        arr'.slot e i = fp64ToFp16 value ∧
        (∀ b : Nat, b ≠ 2 * i → b ≠ 2 * i + 1 → arr'.buffer.readByte b = arr.buffer.readByte b) ∧
        (∀ j : Nat, j ≠ i → arr'.slot e j = arr.slot e j) ∧
        (∀ other : ArrayName, other ≠ name → findArray t.arrays other = findArray s.arrays other) ∧
        t.issued = s.issued ++ [transactionWord 1#1 value] ∧
        t.results = s.results ++ [(s.caller, .ok)] ∧ t.pending = s.pending ∧ t.caller = s.caller) ∧
    (s.CanAccess name false arr → ∀ err : HarnessError,
      (index.toInt? = none ∧ err = .invalidIndex ∨
        (∃ i : Int, index.toInt? = some i ∧ (i < 0 ∨ (arr.length : Int) ≤ i)) ∧ err = .indexOutOfRange) →
      ∃ t : State, execCall e (.set name index value) s = .next t ∧ t.arrays = s.arrays ∧ t.issued = s.issued ∧
        t.results = s.results ++ [(s.caller, .error err)] ∧ t.pending = s.pending ∧ t.caller = s.caller)

/-- R177 (with R178): a `get` or `set` whose index is not valid answers its one error and leaves every slot and every length
unchanged; no conversion is issued, and the caller may continue. -/
def Obligations.FailedCallLeavesEverything : Prop :=
  ∀ (e : Endian) (s : State) (name : ArrayName) (index : HostNumber) (value : Double) (arr : HalfArray),
    s.CanAccess name false arr → (∀ i : Nat, index.toInt? = some (i : Int) → arr.length ≤ i) →
    ∀ c : HostCall, c = .get name index ∨ c = .set name index value →
    ∃ (t : State) (err : HarnessError), execCall e c s = .next t ∧
      (err = .invalidIndex ↔ index.toInt? = none) ∧
      t.results = s.results ++ [(s.caller, .error err)] ∧
      t.arrays = s.arrays ∧ t.issued = s.issued ∧ t.pending = s.pending ∧ t.caller = s.caller

/-- R176: `length()` and `byteLength()`, which change nothing. -/
def Obligations.LengthAccessors : Prop :=
  ∀ (e : Endian) (s : State) (name : ArrayName) (arr : HalfArray), s.CanAccess name false arr →
    (∃ t : State, execCall e (.length name) s = .next t ∧ t.results = s.results ++ [(s.caller, .number arr.length)] ∧
      t.arrays = s.arrays ∧ t.issued = s.issued ∧ t.pending = s.pending ∧ t.caller = s.caller) ∧
    (∃ t : State, execCall e (.byteLength name) s = .next t ∧
      t.results = s.results ++ [(s.caller, .number (2 * arr.length))] ∧
      t.arrays = s.arrays ∧ t.issued = s.issued ∧ t.pending = s.pending ∧ t.caller = s.caller)

/-- R52 (D11): the bytes of an element under each byte order, and no other byte touched. -/
def Obligations.ByteOrderOfElement : Prop :=
  ∀ (m : Memory) (addr : Nat) (h : Half), m.wf →
    ((memWrite .little m addr h).readByte addr = h.extractLsb' 0 8 ∧
      (memWrite .little m addr h).readByte (addr + 1) = h.extractLsb' 8 8) ∧
    ((memWrite .big m addr h).readByte addr = h.extractLsb' 8 8 ∧
      (memWrite .big m addr h).readByte (addr + 1) = h.extractLsb' 0 8) ∧
    (∀ e : Endian, memRead e (memWrite e m addr h) addr = h ∧ (memWrite e m addr h).wf ∧
      ∀ b : Nat, b ≠ addr → b ≠ addr + 1 → (memWrite e m addr h).readByte b = m.readByte b)

/-- R179: the byte view and the element view are one storage: a byte-view write puts its bytes where it says and nowhere else, and the
`get` that follows sees the slot they make. That the write returns ok is the model's reading (log 18, DEDUCED), and which accesses R60
admits is over the model's record of them (log 5, DESIGN CHOICE). -/
def Obligations.ByteViewIsCoherent : Prop :=
  ∀ (e : Endian) (s : State) (name : ArrayName) (offset : Nat) (bytes : List Byte) (arr : HalfArray),
    s.CanAccess name (!bytes.isEmpty) arr → arr.Inv → offset + bytes.length ≤ 2 * arr.length →
    ∃ (t : State) (arr' : HalfArray), execCall e (.writeBytes name offset bytes) s = .next t ∧
      findArray t.arrays name = some arr' ∧ arr'.length = arr.length ∧
      (∀ (j : Nat) (b : Byte), bytes[j]? = some b → arr'.buffer.readByte (offset + j) = b) ∧
      (∀ b : Nat, b < offset ∨ offset + bytes.length ≤ b → arr'.buffer.readByte b = arr.buffer.readByte b) ∧
      (∀ other : ArrayName, other ≠ name → findArray t.arrays other = findArray s.arrays other) ∧
      t.results = s.results ++ [(s.caller, .ok)] ∧ t.issued = s.issued ∧ t.pending = s.pending ∧ t.caller = s.caller ∧
      (∃ v : State, execCall e (.readBytes name offset bytes.length) t = .next v ∧
        v.results = t.results ++ [(t.caller, .bytes bytes)]) ∧
      (∀ (index : HostNumber) (i : Nat), index.toInt? = some (i : Int) → i < arr.length →
        ∃ u : State, execCall e (.get name index) t = .next u ∧
          u.results = t.results ++ [(t.caller, .binary64 (fp16ToFp64 (match e with
            | .little => arr'.buffer.readByte (2 * i + 1) ++ arr'.buffer.readByte (2 * i)
            | .big => arr'.buffer.readByte (2 * i) ++ arr'.buffer.readByte (2 * i + 1))))])

/-- R51, R179: a byte-view read inside the buffer answers its bytes in order and changes no byte. The model's reading (log 7, DEDUCED):
a read or a write that reaches outside the buffer is refused by name, so that no next state exists and nothing of it is performed. -/
def Obligations.ByteViewReadsBytes : Prop :=
  ∀ (e : Endian) (s : State) (name : ArrayName) (offset : Nat) (arr : HalfArray),
    (∀ count : Nat, s.CanAccess name false arr → offset + count ≤ 2 * arr.length → ∃ (t : State) (bs : List Byte),
      execCall e (.readBytes name offset count) s = .next t ∧
      t.results = s.results ++ [(s.caller, .bytes bs)] ∧ bs.length = count ∧
      (∀ j : Nat, j < count → bs[j]? = some (arr.buffer.readByte (offset + j))) ∧
      t.arrays = s.arrays ∧ t.issued = s.issued ∧ t.pending = s.pending ∧ t.caller = s.caller) ∧
    (∀ count : Nat, s.CanAccess name false arr → 2 * arr.length < offset + count →
      execCall e (.readBytes name offset count) s = .refused .byteOutsideBuffer) ∧
    (∀ bytes : List Byte, s.CanAccess name (!bytes.isEmpty) arr → 2 * arr.length < offset + bytes.length →
      execCall e (.writeBytes name offset bytes) s = .refused .byteOutsideBuffer)

/-- R231: nothing waits: every transaction completes, and every harness operation completes, with a result or an error, on an instance
that was constructed (R232) and that R60 lets the caller access; construction completes within its contract (R171). -/
def Obligations.EveryOperationCompletes : Prop :=
  (∀ (i : Instr) (s : State), ∃ t r, exec i s = .next t ∧ t.results = s.results ++ [(s.caller, .word r)]) ∧
  ∀ (e : Endian) (s : State),
    (∀ (name : ArrayName) (arr : HalfArray), s.CanAccess name true arr →
      (∀ index : HostNumber, ∃ t r, execCall e (.get name index) s = .next t ∧ t.results = s.results ++ [(s.caller, r)]) ∧
      (∀ (index : HostNumber) (value : Double), ∃ t r,
        execCall e (.set name index value) s = .next t ∧ t.results = s.results ++ [(s.caller, r)]) ∧
      (∃ t r, execCall e (.length name) s = .next t ∧ t.results = s.results ++ [(s.caller, r)]) ∧
      (∃ t r, execCall e (.byteLength name) s = .next t ∧ t.results = s.results ++ [(s.caller, r)])) ∧
    (∀ (name : ArrayName) (n : HostNumber), n.isLength = true → ∃ t, execCall e (.construct name n) s = .next t)

/-- R232 (D14): every call on an instance that was never constructed is refused. -/
def Obligations.NeverConstructedIsRefused : Prop :=
  ∀ (e : Endian) (s : State) (name : ArrayName), findArray s.arrays name = none →
    (∀ index, execCall e (.get name index) s = .refused .neverConstructed) ∧
    (∀ index value, execCall e (.set name index value) s = .refused .neverConstructed) ∧
    execCall e (.length name) s = .refused .neverConstructed ∧
    execCall e (.byteLength name) s = .refused .neverConstructed ∧
    (∀ offset count, execCall e (.readBytes name offset count) s = .refused .neverConstructed) ∧
    (∀ offset bytes, execCall e (.writeBytes name offset bytes) s = .refused .neverConstructed)

/-- R60, R181 (D13): an access that no synchronisation has ordered after another agent's write is refused, an empty byte-view write
among them, and so is a write after another agent's access of any kind, a read among them. The record of accesses, and which calls
read and which write, are the MODEL'S CHOICE (log 5, DESIGN CHOICE). -/
def Obligations.UnsynchronisedAccessIsRefused : Prop :=
  ∀ (e : Endian) (s : State) (name : ArrayName) (arr : HalfArray) (x : Access),
    findArray s.arrays name = some arr → x ∈ s.accesses → x.array = name → x.agent ≠ s.caller →
    s.caller ∉ x.orderedBefore →
    (x.writes = true →
      (∀ index, execCall e (.get name index) s = .refused .unsynchronisedAccess) ∧
      (∀ index value, execCall e (.set name index value) s = .refused .unsynchronisedAccess) ∧
      execCall e (.length name) s = .refused .unsynchronisedAccess ∧
      execCall e (.byteLength name) s = .refused .unsynchronisedAccess ∧
      (∀ offset count, execCall e (.readBytes name offset count) s = .refused .unsynchronisedAccess) ∧
      (∀ offset bytes, execCall e (.writeBytes name offset bytes) s = .refused .unsynchronisedAccess)) ∧
    (∀ (index : HostNumber) (value : Double) (i : Nat), index.toInt? = some (i : Int) → i < arr.length →
      execCall e (.set name index value) s = .refused .unsynchronisedAccess) ∧
    (∀ offset bytes, bytes ≠ [] → execCall e (.writeBytes name offset bytes) s = .refused .unsynchronisedAccess)

/-- R60 (log 5): after one agent's `set`, another's `get` is refused without a synchronisation and answers with one. -/
def Obligations.SynchronisedAgentsMayShare : Prop :=
  ∀ (e : Endian) (s : State) (name : ArrayName) (arr : HalfArray) (i j : HostNumber) (value : Double) (g g' : Agent),
    g ≠ g' → findArray s.arrays name = some arr → validIndex arr i = true → validIndex arr j = true →
    State.races { s with caller := g } name true = false → State.races { s with caller := g' } name false = false →
    ∃ t u v : State,
      execCall e (.set name i value) { s with caller := g } = .next t ∧
      execCall e (.get name j) { t with caller := g' } = .refused .unsynchronisedAccess ∧
      execCall e (.synchronise g') t = .next u ∧ u.arrays = t.arrays ∧
      execCall e (.get name j) { u with caller := g' } = .next v

/-- R180: after any sequence of calls of any agents, slot i holds ENCODE of the value that `set` last assigned there, 0x0000 if none
did, unless a byte-view write covered it since. That constructing under a name in use (before these calls or by one of them) makes the
name stand for a new instance, with every slot 0x0000 again, is the MODEL'S CHOICE (log 6, DESIGN CHOICE); that the agents' calls take
effect one after another is the model's reading (log 16, DEDUCED). -/
def Obligations.SlotHoldsLastAssignedValue : Prop :=
  ∀ (e : Endian) (name : ArrayName) (n : HostNumber) (k i : Nat) (s₀ s t : State) (calls : List (Agent × HostCall)),
    n.toInt? = some (k : Int) → execCall e (.construct name n) s₀ = .next s → performAll e calls s = .next t →
    ∃ arr : HalfArray, findArray t.arrays name = some arr ∧
      arr.length = (expectedSlot name i (k, some 0x0000#16) calls).1 ∧
      ∀ h : Half, (expectedSlot name i (k, some 0x0000#16) calls).2 = some h → i < arr.length → arr.slot e i = h

/-! ## Test-program lines and the clocked build -/

/-- R85 (D9): every literal form and its pattern. A decimal literal and a power of two stand for the pattern of exactly their value, and
are refused only where there is none; the sign of a decimal literal of value zero is the MODEL'S CHOICE (log 12, DESIGN CHOICE). A
hexadecimal literal is the pattern of its digits, the first the most significant, 16 of them for `<x64>` and 4 for `<x16>`; the zeros,
infinities and NaNs are the named patterns. -/
def Obligations.LiteralsMeanTheirValue : Prop :=
  (∀ (negative : Bool) (m : Nat) (x : ℤ) (a : Double),
    (Literal64.decimal negative m x).bits? = some a ↔ val64 a = .fin (signBit negative) ((m : ℚ) * 10 ^ x)) ∧
  (∀ (k : ℤ) (a : Double), (Literal64.pow2 k).bits? = some a ↔ val64 a = .fin 0#1 (2 ^ k)) ∧
  (∀ (k : ℤ), (Literal64.pow2 k).wellFormed = true ↔ -1074 ≤ k ∧ k ≤ 1023) ∧
  (∀ (digits : List HexDigit), (Literal64.hex digits).wellFormed = true ↔ digits.length = 16) ∧
  (∀ (digits : List HexDigit) (a : Double), (Literal64.hex digits).bits? = some a ↔
    digits.length = 16 ∧ ∀ (i : Nat) (d : HexDigit), digits[i]? = some d → a.toNat / 16 ^ (15 - i) % 16 = d.val) ∧
  (∀ (digits : List HexDigit) (h : Half), literal16Bits? digits = some h ↔
    digits.length = 4 ∧ ∀ (i : Nat) (d : HexDigit), digits[i]? = some d → h.toNat / 16 ^ (3 - i) % 16 = d.val) ∧
  (Literal64.zero false).bits? = some 0x0000000000000000#64 ∧ (Literal64.zero true).bits? = some 0x8000000000000000#64 ∧
  (Literal64.infinity false).bits? = some 0x7FF0000000000000#64 ∧
  (Literal64.infinity true).bits? = some 0xFFF0000000000000#64 ∧
  (Literal64.nan false).bits? = some 0x7FF8000000000000#64 ∧ (Literal64.nan true).bits? = some 0xFFF8000000000000#64

/-- R85, R86, R214: a presented line of each form runs as the transaction or the harness call it stands for, and a line with a literal
outside the syntax is refused. That the head of the host's queue `pending` is the line presented next is the MODEL'S CHOICE (log 2,
DESIGN CHOICE). -/
def Obligations.LineRunsAsItsRequest : Prop :=
  ∀ (s : State) (g : Agent) (l : Line) (rest : List Presented),
    s.pending = { agent := g, request := .line l } :: rest →
    let s' : State := { s with pending := rest, caller := g }
    (∀ x a, l = .encode x → x.bits? = some a → step s = exec (.encode a) s') ∧
    (∀ digits h, l = .decode digits → literal16Bits? digits = some h → step s = exec (.decode (h.setWidth 64)) s') ∧
    (∀ name n, l = .new name n → step s = execCall Config.hostEndian (.construct name n) s') ∧
    (∀ name index x a, l = .set name index x → x.bits? = some a →
      step s = execCall Config.hostEndian (.set name index a) s') ∧
    (∀ name index, l = .get name index → step s = execCall Config.hostEndian (.get name index) s') ∧
    (∀ name, l = .len name → step s = execCall Config.hostEndian (.length name) s') ∧
    (∀ name, l = .bytes name → step s = execCall Config.hostEndian (.byteLength name) s') ∧
    (∀ x, l = .encode x ∨ (∃ name index, l = .set name index x) → x.bits? = none →
      step s = .refused .literalOutsideSyntax) ∧
    (∀ digits, l = .decode digits → literal16Bits? digits = none → step s = .refused .literalOutsideSyntax)

/-- R234 (D3): in a build that registers its ports the result of an operand appears LATENCY cycles after it, for every LATENCY. That
nothing comes out before the first result, and nothing for a cycle in which nothing was presented, is the MODEL'S CHOICE (log 17,
DESIGN CHOICE). -/
def Obligations.ClockedResultAfterLatency : Prop :=
  ∀ (latency : Nat) (presented : List (Option Instr)),
    (∀ (t : Nat) (p : Option Instr), presented[t]? = some p → t + latency < presented.length →
      ((Stages.empty latency).outputs presented)[t + latency]? = some (p.map resultOf)) ∧
    (∀ t : Nat, t < latency → t < presented.length → ((Stages.empty latency).outputs presented)[t]? = some none)
end

