-- ==== Sys2Proof/Laws/Memory.lean ====
section
/-!
SUPPORT. The laws of a buffer: read after write, and that every write keeps the canonical form and the bounds.
-/

namespace Sys2Proof.Machine

theorem Memory.readByte_cons_same (a : Nat) (v : Byte) (m : Memory) (h : Memory.readByte m a = unlistedByte) :
    Memory.readByte (Memory.cons a v m) a = v := by
  unfold Memory.cons
  split
  · next hv => rw [h, hv]
  · simp [Memory.readByte]

theorem Memory.readByte_cons_other {a b : Nat} (v : Byte) (m : Memory) (h : b ≠ a) :
    Memory.readByte (Memory.cons a v m) b = Memory.readByte m b := by
  unfold Memory.cons
  split
  · rfl
  · simp [Memory.readByte, Ne.symm h]

/-- An offset below every listed one reads as unlisted. -/
theorem Memory.readByte_below (m : Memory) (a : Nat) (h : ∀ c ∈ m, a < c.1) : Memory.readByte m a = unlistedByte := by
  induction m with
  | nil => rfl
  | cons c m ih =>
    have hc := h c (by simp)
    have hne : c.1 ≠ a := by omega
    obtain ⟨k, b⟩ := c
    simpa [Memory.readByte, hne] using ih (fun c' hc' => h c' (by simp [hc']))

theorem Memory.readByte_writeByte_other {a b : Nat} (m : Memory) (v : Byte) (h : b ≠ a) :
    (m.writeByte a v).readByte b = m.readByte b := by
  induction m with
  | nil => simpa [Memory.writeByte] using Memory.readByte_cons_other v [] h
  | cons c m ih =>
    obtain ⟨k, x⟩ := c
    simp only [Memory.writeByte]
    split
    · exact Memory.readByte_cons_other v _ h
    · split
      · next heq =>
        subst heq
        rw [Memory.readByte_cons_other v m h]
        simp [Memory.readByte, Ne.symm h]
      · simp only [Memory.readByte, ih]

theorem Memory.readByte_writeByte_same (m : Memory) (a : Nat) (v : Byte) (h : m.wf) :
    (m.writeByte a v).readByte a = v := by
  induction m with
  | nil => simpa [Memory.writeByte] using Memory.readByte_cons_same a v [] rfl
  | cons c m ih =>
    obtain ⟨k, x⟩ := c
    obtain ⟨hp, hd⟩ := h
    rw [List.pairwise_cons] at hp
    simp only [Memory.writeByte]
    split
    · next hlt =>
      apply Memory.readByte_cons_same
      apply Memory.readByte_below
      intro c hc
      rcases List.mem_cons.mp hc with rfl | hc
      · exact hlt
      · exact Nat.lt_trans hlt (hp.1 c hc)
    · split
      · next heq =>
        subst heq
        exact Memory.readByte_cons_same a v m (Memory.readByte_below m a hp.1)
      · next hne =>
        have hk : k ≠ a := Ne.symm hne
        simpa [Memory.readByte, hk] using ih ⟨hp.2, fun c hc => hd c (by simp [hc])⟩

/-- Where the cells of a written buffer come from. -/
theorem Memory.mem_writeByte {m : Memory} {a : Nat} {v : Byte} {c : Host.Cell} (h : c ∈ m.writeByte a v) :
    (c = (a, v) ∧ v ≠ unlistedByte) ∨ c ∈ m := by
  have hcons : ∀ m' : Memory, c ∈ Memory.cons a v m' → (c = (a, v) ∧ v ≠ unlistedByte) ∨ c ∈ m' := by
    intro m' hc
    unfold Memory.cons at hc
    split at hc
    · exact .inr hc
    · next hv =>
      rcases List.mem_cons.mp hc with rfl | hc
      · exact .inl ⟨rfl, hv⟩
      · exact .inr hc
  induction m with
  | nil => exact hcons _ h
  | cons d m ih =>
    obtain ⟨k, x⟩ := d
    simp only [Memory.writeByte] at h
    split at h
    · exact hcons _ h
    · split at h
      · rcases hcons _ h with h | h
        · exact .inl h
        · exact .inr (by simp [h])
      · rcases List.mem_cons.mp h with rfl | h
        · exact .inr (by simp)
        · rcases ih h with h | h
          · exact .inl h
          · exact .inr (by simp [h])

/-- A write keeps the canonical form. -/
theorem Memory.writeByte_wf (m : Memory) (a : Nat) (v : Byte) (h : m.wf) : (m.writeByte a v).wf := by
  refine ⟨?_, fun c hc => ?_⟩
  · obtain ⟨hp, -⟩ := h
    induction m with
    | nil => unfold Memory.writeByte Memory.cons; split <;> simp
    | cons d m ih =>
      obtain ⟨k, x⟩ := d
      rw [List.pairwise_cons] at hp
      simp only [Memory.writeByte]
      split
      · next hlt =>
        unfold Memory.cons
        split
        · exact List.pairwise_cons.mpr hp
        · refine List.pairwise_cons.mpr ⟨?_, List.pairwise_cons.mpr hp⟩
          intro c hc
          rcases List.mem_cons.mp hc with rfl | hc
          · exact hlt
          · exact Nat.lt_trans hlt (hp.1 c hc)
      · split
        · next heq =>
          subst heq
          unfold Memory.cons
          split
          · exact hp.2
          · exact List.pairwise_cons.mpr hp
        · refine List.pairwise_cons.mpr ⟨?_, ih hp.2⟩
          intro c hc
          rcases Memory.mem_writeByte hc with ⟨rfl, -⟩ | hc
          · show k < a
            omega
          · exact hp.1 c hc
  · rcases Memory.mem_writeByte hc with ⟨rfl, hv⟩ | hc
    · exact hv
    · exact h.2 c hc

/-- A write inside a bound keeps the bound. -/
theorem Memory.writeByte_bound {m : Memory} {a n : Nat} {v : Byte} (ha : a < n) (h : ∀ c ∈ m, c.1 < n) :
    ∀ c ∈ m.writeByte a v, c.1 < n := by
  intro c hc
  rcases Memory.mem_writeByte hc with ⟨rfl, -⟩ | hc
  · exact ha
  · exact h c hc

theorem Memory.writeBytes_wf (m : Memory) (offset : Nat) (bs : List Byte) (h : m.wf) : (m.writeBytes offset bs).wf := by
  induction bs generalizing m offset with
  | nil => exact h
  | cons b bs ih => exact ih _ _ (Memory.writeByte_wf m offset b h)

theorem Memory.writeBytes_bound {m : Memory} {offset n : Nat} {bs : List Byte} (hb : offset + bs.length ≤ n)
    (h : ∀ c ∈ m, c.1 < n) : ∀ c ∈ m.writeBytes offset bs, c.1 < n := by
  induction bs generalizing m offset with
  | nil => exact h
  | cons b bs ih =>
    simp only [List.length_cons] at hb
    exact ih (by omega) (Memory.writeByte_bound (by omega) h)

theorem memWrite_wf (e : Endian) (m : Memory) (addr : Nat) (h : Half) (hm : m.wf) : (memWrite e m addr h).wf := by
  cases e <;> exact Memory.writeByte_wf _ _ _ (Memory.writeByte_wf _ _ _ hm)

theorem memWrite_bound {e : Endian} {m : Memory} {addr n : Nat} {h : Half} (ha : addr + 1 < n) (hm : ∀ c ∈ m, c.1 < n) :
    ∀ c ∈ memWrite e m addr h, c.1 < n := by
  cases e <;> exact Memory.writeByte_bound ha (Memory.writeByte_bound (by omega) hm)

/-- Two bytes side by side, as a number. -/
theorem toNat_bytes (hi lo : Byte) : (hi ++ lo).toNat = hi.toNat * 256 + lo.toNat := by
  rw [BitVec.toNat_append, Nat.shiftLeft_eq, Nat.mul_comm, ← Nat.two_pow_add_eq_or_of_lt lo.isLt]

theorem half_of_bytes (h : Half) : h.extractLsb' 8 8 ++ h.extractLsb' 0 8 = h := by
  apply BitVec.eq_of_toNat_eq
  have := h.isLt
  rw [toNat_bytes]
  simp only [BitVec.extractLsb'_toNat, Nat.shiftRight_eq_div_pow]
  omega

/-- A slot reads as it was written. -/
theorem memRead_memWrite_same (e : Endian) (m : Memory) (addr : Nat) (h : Half) (hm : m.wf) :
    memRead e (memWrite e m addr h) addr = h := by
  have h1 : addr ≠ addr + 1 := by omega
  cases e <;> simp only [memRead, memWrite] <;>
    rw [Memory.readByte_writeByte_same _ _ _ (Memory.writeByte_wf _ _ _ hm), Memory.readByte_writeByte_other _ _ h1,
      Memory.readByte_writeByte_same _ _ _ hm] <;>
    exact half_of_bytes h

/-- A write to two bytes leaves every other byte alone. -/
theorem readByte_memWrite_other (e : Endian) (m : Memory) {addr b : Nat} (h : Half) (h0 : b ≠ addr) (h1 : b ≠ addr + 1) :
    (memWrite e m addr h).readByte b = m.readByte b := by
  cases e <;> simp [memWrite, Memory.readByte_writeByte_other, h0, h1]

/-- A write to one slot leaves every other slot alone. -/
theorem HalfArray.slot_setSlot_other (e : Endian) (arr : HalfArray) {i j : Nat} (h : Half) (hij : j ≠ i) :
    (arr.setSlot e i h).slot e j = arr.slot e j := by
  have h0 : 2 * j ≠ 2 * i := by omega
  have h1 : 2 * j ≠ 2 * i + 1 := by omega
  have h2 : 2 * j + 1 ≠ 2 * i := by omega
  have h3 : 2 * j + 1 ≠ 2 * i + 1 := by omega
  cases e <;> simp only [HalfArray.slot, HalfArray.setSlot, memRead] <;>
    rw [readByte_memWrite_other _ _ _ h0 h1, readByte_memWrite_other _ _ _ h2 h3]

theorem HalfArray.slot_setSlot_same (e : Endian) (arr : HalfArray) (i : Nat) (h : Half) (hm : arr.buffer.wf) :
    (arr.setSlot e i h).slot e i = h :=
  memRead_memWrite_same e arr.buffer (2 * i) h hm

@[simp] theorem HalfArray.setSlot_length (e : Endian) (arr : HalfArray) (i : Nat) (h : Half) :
    (arr.setSlot e i h).length = arr.length := rfl

@[simp] theorem HalfArray.fresh_length (n : Nat) : (HalfArray.fresh n).length = n := rfl

@[simp] theorem HalfArray.fresh_slot (e : Endian) (n i : Nat) : (HalfArray.fresh n).slot e i = 0x0000#16 := by
  have h : ∀ a, Memory.readByte [] a = 0x00#8 := fun _ => rfl
  cases e <;> simp only [HalfArray.slot, HalfArray.fresh, memRead, h] <;> rfl

end Sys2Proof.Machine
end

