-- ==== Sys2Proof/Laws/State.lean ====
section
/-!
SUPPORT. One lemma per field per update of the state, so that no later proof unfolds a record update.
-/

namespace Sys2Proof.Machine

section
variable (s : State) (op : BitVec 1) (a : Double) (r : Reply) (name : ArrayName) (arr : HalfArray) (w : Bool) (q : Request)
  (g : Agent)

@[simp] theorem State.issue_pending : (s.issue op a).pending = s.pending := rfl
@[simp] theorem State.issue_caller : (s.issue op a).caller = s.caller := rfl
@[simp] theorem State.issue_issued : (s.issue op a).issued = s.issued ++ [transactionWord op a] := rfl
@[simp] theorem State.issue_results : (s.issue op a).results = s.results := rfl
@[simp] theorem State.issue_arrays : (s.issue op a).arrays = s.arrays := rfl
@[simp] theorem State.issue_accesses : (s.issue op a).accesses = s.accesses := rfl

@[simp] theorem State.reply_pending : (s.reply r).pending = s.pending := rfl
@[simp] theorem State.reply_caller : (s.reply r).caller = s.caller := rfl
@[simp] theorem State.reply_issued : (s.reply r).issued = s.issued := rfl
@[simp] theorem State.reply_results : (s.reply r).results = s.results ++ [(s.caller, r)] := rfl
@[simp] theorem State.reply_arrays : (s.reply r).arrays = s.arrays := rfl
@[simp] theorem State.reply_accesses : (s.reply r).accesses = s.accesses := rfl

@[simp] theorem State.putArray_pending : (s.putArray name arr).pending = s.pending := rfl
@[simp] theorem State.putArray_caller : (s.putArray name arr).caller = s.caller := rfl
@[simp] theorem State.putArray_issued : (s.putArray name arr).issued = s.issued := rfl
@[simp] theorem State.putArray_results : (s.putArray name arr).results = s.results := rfl
@[simp] theorem State.putArray_arrays : (s.putArray name arr).arrays = Machine.putArray s.arrays name arr := rfl
@[simp] theorem State.putArray_accesses : (s.putArray name arr).accesses = s.accesses := rfl

@[simp] theorem State.recordAccess_pending : (s.recordAccess name w).pending = s.pending := rfl
@[simp] theorem State.recordAccess_caller : (s.recordAccess name w).caller = s.caller := rfl
@[simp] theorem State.recordAccess_issued : (s.recordAccess name w).issued = s.issued := rfl
@[simp] theorem State.recordAccess_results : (s.recordAccess name w).results = s.results := rfl
@[simp] theorem State.recordAccess_arrays : (s.recordAccess name w).arrays = s.arrays := rfl
@[simp] theorem State.recordAccess_accesses :
    (s.recordAccess name w).accesses = s.accesses ++ [⟨s.caller, name, w, []⟩] := rfl

@[simp] theorem State.forgetAccesses_pending : (s.forgetAccesses name).pending = s.pending := rfl
@[simp] theorem State.forgetAccesses_caller : (s.forgetAccesses name).caller = s.caller := rfl
@[simp] theorem State.forgetAccesses_issued : (s.forgetAccesses name).issued = s.issued := rfl
@[simp] theorem State.forgetAccesses_results : (s.forgetAccesses name).results = s.results := rfl
@[simp] theorem State.forgetAccesses_arrays : (s.forgetAccesses name).arrays = s.arrays := rfl
@[simp] theorem State.forgetAccesses_accesses :
    (s.forgetAccesses name).accesses = s.accesses.filter (fun x => x.array != name) := rfl

@[simp] theorem State.synchronise_pending : (s.synchronise g).pending = s.pending := rfl
@[simp] theorem State.synchronise_caller : (s.synchronise g).caller = s.caller := rfl
@[simp] theorem State.synchronise_issued : (s.synchronise g).issued = s.issued := rfl
@[simp] theorem State.synchronise_results : (s.synchronise g).results = s.results := rfl
@[simp] theorem State.synchronise_arrays : (s.synchronise g).arrays = s.arrays := rfl
@[simp] theorem State.synchronise_accesses :
    (s.synchronise g).accesses = s.accesses.map (fun x => x.publish s.caller g) := rfl

@[simp] theorem State.presentNext_pending : (s.presentNext q).pending = ⟨s.caller, q⟩ :: s.pending := rfl
@[simp] theorem State.presentNext_caller : (s.presentNext q).caller = s.caller := rfl
@[simp] theorem State.presentNext_issued : (s.presentNext q).issued = s.issued := rfl
@[simp] theorem State.presentNext_results : (s.presentNext q).results = s.results := rfl
@[simp] theorem State.presentNext_arrays : (s.presentNext q).arrays = s.arrays := rfl
@[simp] theorem State.presentNext_accesses : (s.presentNext q).accesses = s.accesses := rfl

end

end Sys2Proof.Machine
end

