-- ==== Sys2Proof/Laws/Arrays.lean ====
section
/-!
SUPPORT. The instances by name, the record of accesses, and what each shared harness operation can do.
-/

namespace Sys2Proof.Machine

@[simp] theorem findArray_putArray_same (arrays : List (ArrayName × HalfArray)) (name : ArrayName) (arr : HalfArray) :
    findArray (putArray arrays name arr) name = some arr := by
  induction arrays with
  | nil => simp [putArray, findArray]
  | cons p rest ih =>
    obtain ⟨k, old⟩ := p
    simp only [putArray]
    split
    · simp [findArray]
    · next h => simp [findArray, h, ih]

theorem findArray_putArray_other (arrays : List (ArrayName × HalfArray)) {name other : ArrayName} (arr : HalfArray)
    (h : other ≠ name) : findArray (putArray arrays name arr) other = findArray arrays other := by
  induction arrays with
  | nil => simp [putArray, findArray, Ne.symm h]
  | cons p rest ih =>
    obtain ⟨k, old⟩ := p
    simp only [putArray]
    split
    · next hk => subst hk; simp [findArray, Ne.symm h]
    · simp only [findArray, ih]

theorem findArray_mem {arrays : List (ArrayName × HalfArray)} {name : ArrayName} {arr : HalfArray}
    (h : findArray arrays name = some arr) : (name, arr) ∈ arrays := by
  induction arrays with
  | nil => simp [findArray] at h
  | cons p rest ih =>
    obtain ⟨k, old⟩ := p
    simp only [findArray] at h
    split at h
    · next hk => simp_all
    · exact List.mem_cons_of_mem _ (ih h)

/-- The names after a binding: the same ones, and `name` at the end if it was not among them. -/
theorem putArray_names (arrays : List (ArrayName × HalfArray)) (name : ArrayName) (arr : HalfArray) :
    (putArray arrays name arr).map Prod.fst =
      if name ∈ arrays.map Prod.fst then arrays.map Prod.fst else arrays.map Prod.fst ++ [name] := by
  induction arrays with
  | nil => simp [putArray]
  | cons p rest ih =>
    obtain ⟨k, old⟩ := p
    simp only [putArray]
    split
    · next hk => simp [hk]
    · next hk =>
      have hk' : name ≠ k := fun h => hk h.symm
      simp only [List.map_cons, ih, List.mem_cons, hk', false_or]
      split <;> simp

theorem mem_putArray {arrays : List (ArrayName × HalfArray)} {name : ArrayName} {arr : HalfArray} {p : ArrayName × HalfArray}
    (h : p ∈ putArray arrays name arr) : p = (name, arr) ∨ p ∈ arrays := by
  induction arrays with
  | nil => simpa [putArray] using h
  | cons q rest ih =>
    obtain ⟨k, old⟩ := q
    simp only [putArray] at h
    split at h
    · rcases List.mem_cons.mp h with h | h
      · exact .inl h
      · exact .inr (by simp [h])
    · rcases List.mem_cons.mp h with h | h
      · exact .inr (by simp [h])
      · rcases ih h with h | h
        · exact .inl h
        · exact .inr (by simp [h])

/-- Everything that opening an instance can do. -/
theorem State.openArray_cases (s : State) (name : ArrayName) (writes : HalfArray → Bool) :
    (findArray s.arrays name = none ∧ s.openArray name writes = .error .neverConstructed) ∨
    (∃ arr, findArray s.arrays name = some arr ∧ s.races name (writes arr) = true ∧
      s.openArray name writes = .error .unsynchronisedAccess) ∨
    (∃ arr, findArray s.arrays name = some arr ∧ s.races name (writes arr) = false ∧
      s.openArray name writes = .ok (arr, s.recordAccess name (writes arr))) := by
  unfold State.openArray
  cases hf : findArray s.arrays name with
  | none => exact .inl ⟨rfl, rfl⟩
  | some arr =>
    cases hr : s.races name (writes arr) with
    | true => exact .inr (.inl ⟨arr, rfl, hr, by simp [hr]⟩)
    | false => exact .inr (.inr ⟨arr, rfl, hr, by simp [hr]⟩)

/-- Everything that the index check can do (R172). -/
theorem checkIndex_cases (arr : HalfArray) (index : HostNumber) :
    (index.toInt? = none ∧ checkIndex arr index = .error .invalidIndex) ∨
    (∃ i : Int, index.toInt? = some i ∧ (i < 0 ∨ (arr.length : Int) ≤ i) ∧ checkIndex arr index = .error .indexOutOfRange) ∨
    (∃ i : Nat, index.toInt? = some (i : Int) ∧ i < arr.length ∧ checkIndex arr index = .ok i) := by
  unfold checkIndex
  cases h : index.toInt? with
  | none => exact .inl ⟨rfl, rfl⟩
  | some i =>
    by_cases hi : i < 0 ∨ (arr.length : Int) ≤ i
    · exact .inr (.inl ⟨i, rfl, hi, by simp [hi]⟩)
    · refine .inr (.inr ⟨i.toNat, ?_, by omega, by simp [hi]⟩)
      rw [Int.toNat_of_nonneg (by omega)]

/-- A synchronisation only adds to what an access is ordered before. -/
theorem Access.publish_fields (x : Access) (source target : Agent) :
    (x.publish source target).agent = x.agent ∧ (x.publish source target).array = x.array ∧
      (x.publish source target).writes = x.writes ∧
      ∀ g ∈ x.orderedBefore, g ∈ (x.publish source target).orderedBefore := by
  unfold Access.publish
  split
  · exact ⟨rfl, rfl, rfl, fun g hg => by simp [hg]⟩
  · exact ⟨rfl, rfl, rfl, fun g hg => hg⟩

end Sys2Proof.Machine
end

