-- ==== Sys2Proof/Laws/Assembly.lean ====
section
/-!
SUPPORT. What each form of line assembles to, and the number that hexadecimal digits spell.
-/

namespace Sys2Proof.Machine

/-- Digits read after others: the others shifted up by as many digits. -/
theorem hexValue_append (xs ys : List HexDigit) : hexValue (xs ++ ys) = hexValue xs * 16 ^ ys.length + hexValue ys := by
  have key : ∀ (ds : List HexDigit) (acc : Nat),
      ds.foldl (fun acc d => 16 * acc + d.val) acc = acc * 16 ^ ds.length + hexValue ds := by
    intro ds
    induction ds with
    | nil => intro acc; simp [hexValue]
    | cons d ds ih =>
      intro acc
      have h0 : hexValue (d :: ds) = d.val * 16 ^ ds.length + hexValue ds := by
        simpa [hexValue] using ih d.val
      rw [List.foldl_cons, ih, h0, List.length_cons]
      ring
  rw [← key ys (hexValue xs)]
  simp [hexValue]

@[simp] theorem hexValue_nil : hexValue [] = 0 := rfl

theorem hexValue_cons (d : HexDigit) (ds : List HexDigit) : hexValue (d :: ds) = d.val * 16 ^ ds.length + hexValue ds := by
  simpa [hexValue] using hexValue_append [d] ds

/-- Digits spell a number of no more digits. -/
theorem hexValue_lt (ds : List HexDigit) : hexValue ds < 16 ^ ds.length := by
  induction ds with
  | nil => simp
  | cons d ds ih =>
    rw [hexValue_cons, List.length_cons, Nat.pow_succ]
    have hd : d.val + 1 ≤ 16 := d.isLt
    have := Nat.mul_le_mul_right (16 ^ ds.length) hd
    rw [Nat.add_mul] at this
    omega

section
variable (array : ArrayName) (n : HostNumber) {x : Literal64} {a : Double} {digits : List HexDigit} {h : Half}

@[simp] theorem Line.assemble_new : (Line.new array n).assemble = .ok (.call (.construct array n)) := rfl
@[simp] theorem Line.assemble_get : (Line.get array n).assemble = .ok (.call (.get array n)) := rfl
@[simp] theorem Line.assemble_len : (Line.len array).assemble = .ok (.call (.length array)) := rfl
@[simp] theorem Line.assemble_bytes : (Line.bytes array).assemble = .ok (.call (.byteLength array)) := rfl

theorem Line.assemble_encode (hx : x.bits? = some a) :
    (Line.encode x).assemble = .ok (.transaction (transactionWord 1#1 a)) := by simp only [Line.assemble, hx]
theorem Line.assemble_decode (hd : literal16Bits? digits = some h) :
    (Line.decode digits).assemble = .ok (.transaction (transactionWord 0#1 (h.setWidth 64))) := by
  simp only [Line.assemble, hd]
theorem Line.assemble_set (hx : x.bits? = some a) : (Line.set array n x).assemble = .ok (.call (.set array n a)) := by
  simp only [Line.assemble, hx]

end

end Sys2Proof.Machine
end

