-- ==== Sys2Proof/Laws/Step.lean ====
section
/-!
SUPPORT. What a step can do, said once: the inversion lemmas of fetch and step, and of each harness call.
-/

namespace Sys2Proof.Machine

/-- Everything a transaction does to the state. -/
theorem exec_next (i : Instr) (s : State) :
    ∃ op a r, exec i s = .next ((s.issue op a).reply (.word r)) := by
  cases i with
  | encode a => exact ⟨_, _, _, rfl⟩
  | decode a => exact ⟨_, _, _, rfl⟩

/-- Everything a step can do when it answers a next state. -/
theorem step_cases {s t : State} (h : step s = .next t) :
    (s.pending = [] ∧ t = s) ∨
    (∃ p rest w, s.pending = p :: rest ∧ p.request.action = .ok (.transaction w) ∧
      exec (decodeWord w) { s with pending := rest, caller := p.agent } = .next t) ∨
    (∃ p rest c, s.pending = p :: rest ∧ p.request.action = .ok (.call c) ∧
      execCall Config.hostEndian c { s with pending := rest, caller := p.agent } = .next t) := by
  unfold step State.fetch at h
  cases hp : s.pending with
  | nil =>
    simp only [hp] at h
    cases h
    exact .inl ⟨rfl, rfl⟩
  | cons p rest =>
    simp only [hp] at h
    cases ha : p.request.action with
    | error r => simp [ha] at h
    | ok act =>
      cases act with
      | transaction w =>
        simp only [ha] at h
        exact .inr (.inl ⟨p, rest, w, rfl, ha, h⟩)
      | call c =>
        simp only [ha] at h
        exact .inr (.inr ⟨p, rest, c, rfl, ha, h⟩)

/-- What `construct` does when it answers (R171). -/
theorem execConstruct_next {name : ArrayName} {n : HostNumber} {s t : State} (h : execConstruct name n s = .next t) :
    ∃ k : Int, n.toInt? = some k ∧ 0 ≤ k ∧ 
      t = ((s.putArray name (.fresh k.toNat)).forgetAccesses name).recordAccess name true := by
  unfold execConstruct at h
  cases hn : n.toInt? with
  | none => simp [hn] at h
  | some k =>
    simp only [hn] at h
    split at h
    · simp at h
    · next hk =>
      cases h
      exact ⟨k, rfl, by omega, rfl⟩

/-- What `get` does when it answers (R173). -/
theorem execGet_next {e : Endian} {name : ArrayName} {index : HostNumber} {s t : State}
    (h : execGet e name index s = .next t) :
    ∃ arr, findArray s.arrays name = some arr ∧ s.races name false = false ∧
      ((∃ err, checkIndex arr index = .error err ∧ t = (s.recordAccess name false).reply (.error err)) ∨
       (∃ i, checkIndex arr index = .ok i ∧
          t = ((s.recordAccess name false).issue 0#1 ((arr.slot e i).setWidth 64)).reply
            (.binary64 (fp16ToFp64 (arr.slot e i))))) := by
  unfold execGet at h
  rcases s.openArray_cases name (fun _ => false) with ⟨-, ho⟩ | ⟨arr, -, -, ho⟩ | ⟨arr, hf, hr, ho⟩
  · simp [ho] at h
  · simp [ho] at h
  · simp only [ho] at h
    refine ⟨arr, hf, hr, ?_⟩
    cases hc : checkIndex arr index with
    | error err =>
      simp only [hc] at h
      cases h
      exact .inl ⟨err, rfl, rfl⟩
    | ok i =>
      simp only [hc] at h
      cases h
      exact .inr ⟨i, rfl, rfl⟩

/-- What `set` does when it answers (R174). -/
theorem execSet_next {e : Endian} {name : ArrayName} {index : HostNumber} {value : Double} {s t : State}
    (h : execSet e name index value s = .next t) :
    ∃ arr, findArray s.arrays name = some arr ∧ s.races name (validIndex arr index) = false ∧
      ((∃ err, checkIndex arr index = .error err ∧ t = (s.recordAccess name (validIndex arr index)).reply (.error err)) ∨
       (∃ i, checkIndex arr index = .ok i ∧
          t = (((s.recordAccess name (validIndex arr index)).issue 1#1 value).putArray name
            (arr.setSlot e i (fp64ToFp16 value))).reply .ok)) := by
  unfold execSet at h
  rcases s.openArray_cases name (fun arr => validIndex arr index) with ⟨-, ho⟩ | ⟨arr, -, -, ho⟩ | ⟨arr, hf, hr, ho⟩
  · simp [ho] at h
  · simp [ho] at h
  · simp only [ho] at h
    refine ⟨arr, hf, hr, ?_⟩
    cases hc : checkIndex arr index with
    | error err =>
      simp only [hc] at h
      cases h
      exact .inl ⟨err, rfl, rfl⟩
    | ok i =>
      simp only [hc] at h
      cases h
      exact .inr ⟨i, rfl, rfl⟩

/-- What a call that only reads the instance does when it answers: a read access, and one reply. -/
theorem readCall_next {name : ArrayName} {s t : State} {c : HostCall} {e : Endian}
    (hc : c = .length name ∨ c = .byteLength name ∨ ∃ offset count, c = .readBytes name offset count)
    (h : execCall e c s = .next t) :
    ∃ arr r, findArray s.arrays name = some arr ∧ s.races name false = false ∧ t = (s.recordAccess name false).reply r := by
  rcases s.openArray_cases name (fun _ => false) with ⟨-, ho⟩ | ⟨arr, -, -, ho⟩ | ⟨arr, hf, hr, ho⟩
  · rcases hc with rfl | rfl | ⟨o, n, rfl⟩ <;> simp [execCall, execLength, execByteLength, execReadBytes, ho] at h
  · rcases hc with rfl | rfl | ⟨o, n, rfl⟩ <;> simp [execCall, execLength, execByteLength, execReadBytes, ho] at h
  · rcases hc with rfl | rfl | ⟨o, n, rfl⟩
    · simp only [execCall, execLength, ho] at h
      cases h
      exact ⟨arr, _, hf, hr, rfl⟩
    · simp only [execCall, execByteLength, ho] at h
      cases h
      exact ⟨arr, _, hf, hr, rfl⟩
    · simp only [execCall, execReadBytes, ho] at h
      split at h
      · cases h
        exact ⟨arr, _, hf, hr, rfl⟩
      · simp at h

/-- What a byte-view write does when it answers (R179). -/
theorem execWriteBytes_next {name : ArrayName} {offset : Nat} {bytes : List Byte} {s t : State}
    (h : execWriteBytes name offset bytes s = .next t) :
    ∃ arr, findArray s.arrays name = some arr ∧ s.races name (!bytes.isEmpty) = false ∧
      offset + bytes.length ≤ arr.byteLength ∧
      t = ((s.recordAccess name (!bytes.isEmpty)).putArray name
        { arr with buffer := arr.buffer.writeBytes offset bytes }).reply .ok := by
  unfold execWriteBytes at h
  rcases s.openArray_cases name (fun _ => !bytes.isEmpty) with ⟨-, ho⟩ | ⟨arr, -, -, ho⟩ | ⟨arr, hf, hr, ho⟩
  · simp [ho] at h
  · simp [ho] at h
  · simp only [ho] at h
    split at h
    · next hb =>
      cases h
      exact ⟨arr, hf, hr, hb, rfl⟩
    · simp at h

end Sys2Proof.Machine
end

