-- ==== Sys2Proof/Laws/Harness.lean ====
section
/-!
SUPPORT. What each harness call answers, as an equation, under conditions on the state alone; and what the index check and the race
check say.
-/

namespace Sys2Proof.Machine

theorem State.openArray_ok {s : State} {name : ArrayName} {writes : HalfArray → Bool} {arr : HalfArray}
    (h : s.CanAccess name (writes arr) arr) : s.openArray name writes = .ok (arr, s.recordAccess name (writes arr)) := by
  simp [State.openArray, h.1, h.2]

theorem State.openArray_race {s : State} {name : ArrayName} {writes : HalfArray → Bool} {arr : HalfArray}
    (hf : findArray s.arrays name = some arr) (hr : s.races name (writes arr) = true) :
    s.openArray name writes = .error .unsynchronisedAccess := by
  simp [State.openArray, hf, hr]

theorem State.openArray_none {s : State} {name : ArrayName} {writes : HalfArray → Bool}
    (hf : findArray s.arrays name = none) : s.openArray name writes = .error .neverConstructed := by
  simp [State.openArray, hf]

/-- A caller that may write may read. -/
theorem State.CanAccess.read {s : State} {name : ArrayName} {w : Bool} {arr : HalfArray} (h : s.CanAccess name w arr) :
    s.CanAccess name false arr := by
  refine ⟨h.1, ?_⟩
  have hr := h.2
  simp only [State.races, Access.racesWith, List.any_eq_false, Bool.and_eq_true, Bool.or_eq_true, Bool.not_eq_true',
    Bool.false_eq_true, or_false] at hr ⊢
  intro x hx hc
  exact hr x hx ⟨⟨hc.1.1, .inl hc.1.2⟩, hc.2⟩

/-- The race check, as a proposition (R60). -/
theorem State.races_eq_true (s : State) (name : ArrayName) (w : Bool) :
    s.races name w = true ↔ ∃ x ∈ s.accesses, x.array = name ∧ x.agent ≠ s.caller ∧ (x.writes = true ∨ w = true) ∧
      s.caller ∉ x.orderedBefore := by
  simp only [State.races, Access.racesWith, List.any_eq_true, Bool.and_eq_true, Bool.or_eq_true, Bool.not_eq_true', beq_iff_eq,
    bne_iff_ne, ne_eq, List.contains_eq_mem, decide_eq_false_iff_not, and_assoc]

theorem checkIndex_ok {arr : HalfArray} {index : HostNumber} {i : Nat} (h : index.toInt? = some (i : Int))
    (hl : i < arr.length) : checkIndex arr index = .ok i := by
  have hn : ¬((i : Int) < 0 ∨ (arr.length : Int) ≤ (i : Int)) := by omega
  simp only [checkIndex, h, if_neg hn, Int.toNat_natCast]

theorem checkIndex_invalid {arr : HalfArray} {index : HostNumber} (h : index.toInt? = none) :
    checkIndex arr index = .error .invalidIndex := by
  simp [checkIndex, h]

theorem checkIndex_range {arr : HalfArray} {index : HostNumber} {i : Int} (h : index.toInt? = some i)
    (hl : i < 0 ∨ (arr.length : Int) ≤ i) : checkIndex arr index = .error .indexOutOfRange := by
  simp [checkIndex, h, hl]

theorem validIndex_of_ok {arr : HalfArray} {index : HostNumber} {i : Nat} (h : checkIndex arr index = .ok i) :
    validIndex arr index = true := by
  simp [validIndex, h]

theorem validIndex_of_error {arr : HalfArray} {index : HostNumber} {err : HarnessError}
    (h : checkIndex arr index = .error err) : validIndex arr index = false := by
  simp [validIndex, h]

section
variable {e : Endian} {s : State} {name : ArrayName} {index : HostNumber} {arr : HalfArray}

theorem execGet_ok {i : Nat} (h : s.CanAccess name false arr) (hc : checkIndex arr index = .ok i) :
    execGet e name index s = .next (((s.recordAccess name false).issue 0#1 ((arr.slot e i).setWidth 64)).reply
      (.binary64 (fp16ToFp64 (arr.slot e i)))) := by
  simp only [execGet, State.openArray_ok (writes := fun _ => false) h, hc]

theorem execGet_error {err : HarnessError} (h : s.CanAccess name false arr) (hc : checkIndex arr index = .error err) :
    execGet e name index s = .next ((s.recordAccess name false).reply (.error err)) := by
  simp only [execGet, State.openArray_ok (writes := fun _ => false) h, hc]

theorem execSet_ok {i : Nat} {value : Double} (h : s.CanAccess name true arr) (hc : checkIndex arr index = .ok i) :
    execSet e name index value s = .next ((((s.recordAccess name true).issue 1#1 value).putArray name
      (arr.setSlot e i (fp64ToFp16 value))).reply .ok) := by
  have hv := validIndex_of_ok hc
  have h' : s.CanAccess name ((fun arr => validIndex arr index) arr) arr := by simpa only [hv] using h
  simp only [execSet, State.openArray_ok (writes := fun arr => validIndex arr index) h', hc, hv]

theorem execSet_error {err : HarnessError} {value : Double} (h : s.CanAccess name false arr)
    (hc : checkIndex arr index = .error err) :
    execSet e name index value s = .next ((s.recordAccess name false).reply (.error err)) := by
  have hv := validIndex_of_error hc
  have h' : s.CanAccess name ((fun arr => validIndex arr index) arr) arr := by simpa only [hv] using h
  simp only [execSet, State.openArray_ok (writes := fun arr => validIndex arr index) h', hc, hv]

theorem execLength_ok (h : s.CanAccess name false arr) :
    execLength name s = .next ((s.recordAccess name false).reply (.number arr.length)) := by
  simp only [execLength, State.openArray_ok (writes := fun _ => false) h]

theorem execByteLength_ok (h : s.CanAccess name false arr) :
    execByteLength name s = .next ((s.recordAccess name false).reply (.number arr.byteLength)) := by
  simp only [execByteLength, State.openArray_ok (writes := fun _ => false) h]

theorem execReadBytes_ok {offset count : Nat} (h : s.CanAccess name false arr) (hb : offset + count ≤ arr.byteLength) :
    execReadBytes name offset count s =
      .next ((s.recordAccess name false).reply (.bytes (arr.buffer.readBytes offset count))) := by
  simp only [execReadBytes, State.openArray_ok (writes := fun _ => false) h, hb, if_true]

theorem execReadBytes_outside {offset count : Nat} (h : s.CanAccess name false arr) (hb : arr.byteLength < offset + count) :
    execReadBytes name offset count s = .refused .byteOutsideBuffer := by
  simp only [execReadBytes, State.openArray_ok (writes := fun _ => false) h, if_neg (Nat.not_le.mpr hb)]

theorem execWriteBytes_outside {offset : Nat} {bytes : List Byte} (h : s.CanAccess name (!bytes.isEmpty) arr)
    (hb : arr.byteLength < offset + bytes.length) : execWriteBytes name offset bytes s = .refused .byteOutsideBuffer := by
  simp only [execWriteBytes, State.openArray_ok (writes := fun _ => !bytes.isEmpty) h, if_neg (Nat.not_le.mpr hb)]

theorem execWriteBytes_ok {offset : Nat} {bytes : List Byte} (h : s.CanAccess name (!bytes.isEmpty) arr)
    (hb : offset + bytes.length ≤ arr.byteLength) :
    execWriteBytes name offset bytes s = .next (((s.recordAccess name (!bytes.isEmpty)).putArray name
      { arr with buffer := arr.buffer.writeBytes offset bytes }).reply .ok) := by
  simp only [execWriteBytes, State.openArray_ok (writes := fun _ => !bytes.isEmpty) h, hb, if_true]

end

end Sys2Proof.Machine
end

