-- ==== Sys2Proof/Laws/PerInstr.lean ====
section
/-!
SUPPORT. Statements made once per instruction, as syntax.
-/

namespace Sys2Proof.Laws

/-- The selector bit of the instruction's word, in the table's terms (R81, spec/opcode_table.json): bit 0 under mask 1. -/
def Selector.Statement (i : Instr) : Prop :=
  (encodeInstr i).toNat % 2 = match i with
    | .encode _ => 1
    | .decode _ => 0

theorem Selector.encode (a : Double) : Selector.Statement (.encode a) := by
  simp only [Selector.Statement, encodeInstr, transactionWord, BitVec.toNat_append, Nat.shiftLeft_eq]
  rw [Nat.mul_comm, ← Nat.two_pow_add_eq_or_of_lt (by decide)]
  simp

theorem Selector.decode (a : Double) : Selector.Statement (.decode a) := by
  simp only [Selector.Statement, encodeInstr, transactionWord, BitVec.toNat_append, Nat.shiftLeft_eq]
  rw [Nat.mul_comm, ← Nat.two_pow_add_eq_or_of_lt (by decide)]
  simp

end Sys2Proof.Laws
end

