-- ==== Sys2Proof/Laws/Units.lean ====
section
/-!
SUPPORT. The fields of a pattern built from fields, the bounds of the fields, and the bounds of a rounded result.
-/

namespace Sys2Proof.Machine

theorem exp5_lt (h : Half) : exp5 h < 32 := BitVec.isLt _
theorem frac10_lt (h : Half) : frac10 h < 1024 := BitVec.isLt _
theorem exp8_lt (f : Single) : exp8 f < 256 := BitVec.isLt _
theorem frac23_lt (f : Single) : frac23 f < 2 ^ 23 := BitVec.isLt _
theorem exp11_lt (a : Double) : exp11 a < 2048 := BitVec.isLt _
theorem frac52_lt (a : Double) : frac52 a < 2 ^ 52 := BitVec.isLt _

/-- A word built of three fields, as a number. -/
theorem toNat_append3 {m n : Nat} (s : BitVec 1) (e : BitVec m) (f : BitVec n) :
    (s ++ e ++ f).toNat = (s.toNat * 2 ^ m + e.toNat) * 2 ^ n + f.toNat := by
  simp only [BitVec.toNat_append, Nat.shiftLeft_eq]
  rw [Nat.mul_comm s.toNat, ← Nat.two_pow_add_eq_or_of_lt e.isLt, Nat.mul_comm _ (2 ^ n),
    ← Nat.two_pow_add_eq_or_of_lt f.isLt]

theorem sign16_pack16 (s : BitVec 1) (e f : Nat) : sign16 (pack16 s e f) = s := by
  apply BitVec.eq_of_toNat_eq
  have he := (BitVec.ofNat 5 e).isLt
  have hf := (BitVec.ofNat 10 f).isLt
  have hs := s.isLt
  simp only [sign16, pack16, BitVec.extractLsb'_toNat, toNat_append3, Nat.shiftRight_eq_div_pow]
  omega

theorem exp5_pack16 (s : BitVec 1) (e f : Nat) (h : e < 32) : exp5 (pack16 s e f) = e := by
  have he : (BitVec.ofNat 5 e).toNat = e := by simp [Nat.mod_eq_of_lt h]
  have hf := (BitVec.ofNat 10 f).isLt
  simp only [exp5, pack16, BitVec.extractLsb'_toNat, toNat_append3, Nat.shiftRight_eq_div_pow, he]
  omega

theorem frac10_pack16 (s : BitVec 1) (e f : Nat) (h : f < 1024) : frac10 (pack16 s e f) = f := by
  have hf : (BitVec.ofNat 10 f).toNat = f := by simp [Nat.mod_eq_of_lt h]
  simp only [frac10, pack16, BitVec.extractLsb'_toNat, toNat_append3, hf]
  omega

theorem sign32_pack32 (s : BitVec 1) (e f : Nat) : sign32 (pack32 s e f) = s := by
  apply BitVec.eq_of_toNat_eq
  have he := (BitVec.ofNat 8 e).isLt
  have hf := (BitVec.ofNat 23 f).isLt
  have hs := s.isLt
  simp only [sign32, pack32, BitVec.extractLsb'_toNat, toNat_append3, Nat.shiftRight_eq_div_pow]
  omega

theorem exp8_pack32 (s : BitVec 1) (e f : Nat) (h : e < 256) : exp8 (pack32 s e f) = e := by
  have he : (BitVec.ofNat 8 e).toNat = e := by simp [Nat.mod_eq_of_lt h]
  have hf := (BitVec.ofNat 23 f).isLt
  simp only [exp8, pack32, BitVec.extractLsb'_toNat, toNat_append3, Nat.shiftRight_eq_div_pow, he]
  omega

theorem frac23_pack32 (s : BitVec 1) (e f : Nat) (h : f < 2 ^ 23) : frac23 (pack32 s e f) = f := by
  have hf : (BitVec.ofNat 23 f).toNat = f := Nat.mod_eq_of_lt h
  simp only [frac23, pack32, BitVec.extractLsb'_toNat, toNat_append3, hf]
  omega

theorem sign64_pack64 (s : BitVec 1) (e f : Nat) : sign64 (pack64 s e f) = s := by
  apply BitVec.eq_of_toNat_eq
  have he := (BitVec.ofNat 11 e).isLt
  have hf := (BitVec.ofNat 52 f).isLt
  have hs := s.isLt
  simp only [sign64, pack64, BitVec.extractLsb'_toNat, toNat_append3, Nat.shiftRight_eq_div_pow]
  omega

theorem exp11_pack64 (s : BitVec 1) (e f : Nat) (h : e < 2048) : exp11 (pack64 s e f) = e := by
  have he : (BitVec.ofNat 11 e).toNat = e := by simp [Nat.mod_eq_of_lt h]
  have hf := (BitVec.ofNat 52 f).isLt
  simp only [exp11, pack64, BitVec.extractLsb'_toNat, toNat_append3, Nat.shiftRight_eq_div_pow, he]
  omega

theorem frac52_pack64 (s : BitVec 1) (e f : Nat) (h : f < 2 ^ 52) : frac52 (pack64 s e f) = f := by
  have hf : (BitVec.ofNat 52 f).toNat = f := Nat.mod_eq_of_lt h
  simp only [frac52, pack64, BitVec.extractLsb'_toNat, toNat_append3, hf]
  omega

/-- A half pattern is its three fields (R70). -/
theorem pack16_fields (h : Half) : pack16 (sign16 h) (exp5 h) (frac10 h) = h := by
  apply BitVec.eq_of_toNat_eq
  have hh := h.isLt
  simp only [pack16, toNat_append3, sign16, exp5, frac10, BitVec.toNat_ofNat, BitVec.extractLsb'_toNat, Nat.shiftRight_eq_div_pow]
  omega

/-- Everything that RoundRNE can answer (R17): the quotient or one more. -/
theorem roundRNE_cases (m k : Nat) : roundRNE m k = m / 2 ^ k ∨ (0 < k ∧ roundRNE m k = m / 2 ^ k + 1) := by
  unfold roundRNE
  by_cases hk : k = 0
  · simp [hk]
  · simp only [hk, if_false, Nat.shiftRight_eq_div_pow]
    split
    · exact .inr ⟨by omega, rfl⟩
    · split
      · exact .inr ⟨by omega, rfl⟩
      · exact .inl rfl

theorem roundRNE_le (m k : Nat) : roundRNE m k ≤ m / 2 ^ k + 1 := by
  rcases roundRNE_cases m k with h | ⟨-, h⟩ <;> omega

theorem roundRNE_ge (m k : Nat) : m / 2 ^ k ≤ roundRNE m k := by
  rcases roundRNE_cases m k with h | ⟨-, h⟩ <;> omega

/-- R18: `msb x` is the one p with 2^p ≤ x < 2^(p+1). -/
theorem msb_spec {x : Nat} (h : x ≠ 0) : 2 ^ msb x ≤ x ∧ x < 2 ^ (msb x + 1) :=
  ⟨Nat.log2_self_le h, Nat.lt_log2_self⟩

/-- The fields DECODE places fit (R144): a subnormal's leading one is bit 9 at most. -/
theorem msb_frac10_le {h : Half} (hf : frac10 h ≠ 0) : msb (frac10 h) ≤ 9 := by
  have h10 : frac10 h < 2 ^ 10 := frac10_lt h
  have := (Nat.log2_lt hf).mpr h10
  unfold msb
  omega

/-- The result of an instruction is the wrapper's result on its transaction word (R80, R81). -/
theorem resultOf_eq_transaction (i : Instr) :
    resultOf i = transaction (transactionOp (encodeInstr i)) (transactionOperand (encodeInstr i)) := by
  have hop : ∀ (op : BitVec 1) (a : Double), transactionOp (transactionWord op a) = op := by
    intro op a
    apply BitVec.eq_of_toNat_eq
    simp only [transactionOp, transactionWord, BitVec.extractLsb'_toNat, BitVec.toNat_append, Nat.shiftLeft_eq]
    rw [Nat.mul_comm, ← Nat.two_pow_add_eq_or_of_lt op.isLt]
    have := op.isLt
    omega
  have ha : ∀ (op : BitVec 1) (a : Double), transactionOperand (transactionWord op a) = a := by
    intro op a
    apply BitVec.eq_of_toNat_eq
    simp only [transactionOperand, transactionWord, BitVec.extractLsb'_toNat, BitVec.toNat_append, Nat.shiftLeft_eq,
      Nat.shiftRight_eq_div_pow]
    rw [Nat.mul_comm, ← Nat.two_pow_add_eq_or_of_lt op.isLt]
    have := op.isLt
    have := a.isLt
    omega
  cases i <;> simp [resultOf, encodeInstr, hop, ha]

end Sys2Proof.Machine
end

