-- ==== Sys2Proof/Machine/Text.lean ====
section
/-!
DEFINITION. The text of a test-program line (R85, R86), as characters, to its `Line`. It reads the shape of a line only: whether a
literal is admitted (16 digits, an exact decimal, the range of `2^k`) is the assembler's question. Details of the text that the spec
does not state are DESIGN CHOICE (log 12).
-/

namespace Sys2Proof.Machine

/-- "Text after `;` is a comment" (R85). -/
def stripComment (cs : List Char) : List Char := cs.takeWhile (fun c => c != ';')

/-- A finished word before the tokens after it. -/
def flushWord (word : List Char) (tokens : List (List Char)) : List (List Char) :=
  if word.isEmpty then tokens else word :: tokens

/-- The words of a line and its commas, each a token of its own. -/
def tokens (cs : List Char) : List (List Char) :=
  let r := cs.foldr (fun c (acc : List Char × List (List Char)) =>
    if c == ' ' || c == '\t' then ([], flushWord acc.1 acc.2)
    else if c == ',' then ([], [','] :: flushWord acc.1 acc.2)
    else (c :: acc.1, acc.2)) ([], [])
  flushWord r.1 r.2

/-- The value of a hexadecimal digit, capital or small. -/
def hexDigit? (c : Char) : Option HexDigit :=
  let n := c.toNat
  if 48 ≤ n ∧ n ≤ 57 then some (Fin.ofNat 16 (n - 48))
  else if 65 ≤ n ∧ n ≤ 70 then some (Fin.ofNat 16 (n - 55))
  else if 97 ≤ n ∧ n ≤ 102 then some (Fin.ofNat 16 (n - 87))
  else none

/-- The digits after `0x`, however many there are. -/
def hexDigits? : List Char → Option (List HexDigit)
  | '0' :: 'x' :: ds => ds.mapM hexDigit?
  | _ => none

/-- The value of a decimal digit. -/
def digit? (c : Char) : Option Nat :=
  let n := c.toNat
  if 48 ≤ n ∧ n ≤ 57 then some (n - 48) else none

/-- The number that one or more decimal digits spell. -/
def natural? (cs : List Char) : Option Nat :=
  if cs.isEmpty then none
  else (cs.mapM digit?).map (fun ds => ds.foldl (fun acc d => 10 * acc + d) 0)

/-- An integer, with a minus sign or none. -/
def integer? : List Char → Option Int
  | '-' :: cs => (natural? cs).map (fun n => -(n : Int))
  | cs => (natural? cs).map (fun n => (n : Int))

/-- What stands before the first of the characters that `p` picks, and what stands after it if there is one. -/
def cut (p : Char → Bool) (cs : List Char) : List Char × Option (List Char) :=
  match cs.dropWhile (fun c => !p c) with
  | [] => (cs, none)
  | _ :: rest => (cs.takeWhile (fun c => !p c), some rest)

/-- A decimal number without its sign, such as `1.5`, `1e6` or `65520`: its mantissa and its power of ten. -/
def unsignedDecimal? (cs : List Char) : Option (Nat × Int) := do
  let (body, power) := cut (fun c => c == 'e' || c == 'E') cs
  let exponent ← match power with
    | none => some 0
    | some ds => integer? ds
  let (whole, fraction) := cut (fun c => c == '.') body
  match fraction with
  | none => do
    let m ← natural? whole
    return (m, exponent)
  | some ds => do
    let w ← natural? whole
    let f ← natural? ds
    return (w * 10 ^ ds.length + f, exponent - ds.length)

/-- A decimal number: whether it has a minus sign, its mantissa and its power of ten. -/
def decimal? : List Char → Option (Bool × Nat × Int)
  | '-' :: cs => (unsignedDecimal? cs).map (fun r => (true, r.1, r.2))
  | cs => (unsignedDecimal? cs).map (fun r => (false, r.1, r.2))

/-- `<x64>` (R85): the named literals, the hexadecimal form, `2^k`, and the decimal form. -/
def literal64? (cs : List Char) : Option Literal64 :=
  if cs = ['+', '0', '.', '0'] then some (.zero false)
  else if cs = ['-', '0', '.', '0'] then some (.zero true)
  else if cs = ['+', 'i', 'n', 'f'] then some (.infinity false)
  else if cs = ['-', 'i', 'n', 'f'] then some (.infinity true)
  else if cs = ['n', 'a', 'n'] then some (.nan false)
  else if cs = ['-', 'n', 'a', 'n'] then some (.nan true)
  else
    match cs with
    | '0' :: 'x' :: _ => (hexDigits? cs).map .hex
    | '2' :: '^' :: ks => (integer? ks).map .pow2
    | _ => (decimal? cs).map (fun r => .decimal r.1 r.2.1 r.2.2)

/-- `<i>` and `<n>` (R86): a decimal number, integral or not. -/
def hostNumber? (cs : List Char) : Option HostNumber :=
  (decimal? cs).map (fun r =>
    let m : Int := if r.1 then -(r.2.1 : Int) else (r.2.1 : Int)
    if r.2.2 ≥ 0 then .decimal (m * 10 ^ r.2.2.toNat) 0 else .decimal m (-r.2.2).toNat)

/-- The name of an instance as a number (log 13): its characters as the digits of a number in base 0x110000. A comma is no name. -/
def arrayName? (cs : List Char) : Option ArrayName :=
  if cs = [','] then none else some (cs.foldl (fun acc c => 0x110000 * acc + c.toNat) 0)

/-- One line of a test program (R85, R86), or none where its text is no line of that syntax. -/
def parseLine (cs : List Char) : Option Line :=
  match tokens (stripComment cs) with
  | [op, x] =>
    if op = ['e', 'n', 'c', 'o', 'd', 'e'] then (literal64? x).map .encode
    else if op = ['d', 'e', 'c', 'o', 'd', 'e'] then (hexDigits? x).map .decode
    else if op = ['l', 'e', 'n'] then (arrayName? x).map .len
    else if op = ['b', 'y', 't', 'e', 's'] then (arrayName? x).map .bytes
    else none
  | [op, a, [','], x] => do
    let array ← arrayName? a
    let number ← hostNumber? x
    if op = ['n', 'e', 'w'] then some (.new array number)
    else if op = ['g', 'e', 't'] then some (.get array number)
    else none
  | [op, a, [','], i, [','], x] => do
    let array ← arrayName? a
    let index ← hostNumber? i
    let value ← literal64? x
    if op = ['s', 'e', 't'] then some (.set array index value) else none
  | _ => none

end Sys2Proof.Machine
end

