-- ==== Sys2Proof/Tests/Slice0.lean ====
section
/-!
SUPPORT. The model's own tests: well-formedness refuses what is ill formed, words written out from the encoding decode, single steps
against the spec's vectors (95_test_vectors.md; the row is named at each), and a witness for the hypotheses of each statement.
-/

open Sys2Proof Sys2Proof.Machine

namespace Sys2Proof.Tests

/-! ## Well-formedness -/

theorem smoke_hex_needs_16_digits : (Literal64.hex [1, 2, 3]).wellFormed = false := by decide
/-- 0.1 is not exactly a binary64 value (R85). -/
theorem smoke_inexact_decimal : (Literal64.decimal false 1 (-1)).wellFormed = false := by decide
theorem smoke_pow2_range : (Literal64.pow2 1024).wellFormed = false ∧ (Literal64.pow2 (-1075)).wellFormed = false := by decide
theorem smoke_half_needs_4_digits : (Line.decode [1, 2, 3]).wellFormed = false := by decide
theorem smoke_negative_length : (HostCall.construct 65 (.decimal (-1) 0)).wellFormed = false := by decide
theorem smoke_non_integer_length : (Line.new 65 (.decimal 25 1)).wellFormed = false := by decide
theorem smoke_set_line_literal : (Line.set 65 (.decimal 0 0) (.hex [])).wellFormed = false := by decide
theorem smoke_ill_formed_request : (Request.line (.encode (.pow2 5000))).wellFormed = false := by decide
/-- Every instruction is well formed, whatever its operand (R79, R82). -/
theorem smoke_instr : (Instr.decode 0xFFFFFFFFFFFF7C01#64).wellFormed = true := by decide

/-! ## Decoding: words written out from R80 and R81, a[63:0] above op -/

/-- encode 1.5, a = 0x3FF8000000000000 (95 E11). -/
theorem test_decode_encode_word :
    decodeWord 0b00111111111110000000000000000000000000000000000000000000000000001#65 = .encode 0x3FF8000000000000#64 := by
  decide
/-- op = 0, a = 0xFFFFFFFFFFFF7C01 (95 P3, third line). -/
theorem test_decode_decode_word :
    decodeWord 0b11111111111111111111111111111111111111111111111101111100000000010#65 = .decode 0xFFFFFFFFFFFF7C01#64 := by
  decide
theorem test_decode_table_rows :
    decodeTableWord 8 1 = some (.encode 0#64) ∧ decodeTableWord 8 0 = some (.decode 0#64) := by decide
theorem test_decode_too_wide : decodeNumber (2 ^ 65) = .error .widerThanTransactionWord := by rfl

/-! ## One step of each instruction -/

/-- The results after one step that runs the word. -/
def resultsOf (w : TransactionWord) : List (Agent × Reply) :=
  match step (State.reset.presentNext (.transaction w)) with
  | .next t => t.results
  | .fault f => nomatch f
  | .refused _ => []

/-- 95 E35: the carry out of the subnormal path is kept. -/
theorem test_encode_keeps_carry :
    resultsOf (transactionWord 1#1 0x3F0FFC0000000000#64) = [(0, .word 0x0400#64)] := by decide
/-- 95 E50: narrowing first, so a double rounding. -/
theorem test_encode_narrows_first :
    resultsOf (transactionWord 1#1 0x3FF0020000001000#64) = [(0, .word 0x3C00#64)] := by decide
/-- 95 X6: a subnormal, p = 8. -/
theorem test_decode_subnormal :
    resultsOf (transactionWord 0#1 0x0155#64) = [(0, .word 0x3EF5500000000000#64)] := by decide
/-- 95 P3, third line: a[63:16] is ignored, and only a[15] gives the sign. -/
theorem test_decode_ignores_upper_bits :
    resultsOf (transactionWord 0#1 0xFFFFFFFFFFFF7C01#64) = [(0, .word 0x7FF8000000000000#64)] := by decide
theorem test_fetch_word : step (State.reset.withFetchWord 8 1) = exec (.encode 0#64) State.reset := by rfl

/-! ## The harness, under both byte orders (95 section 4 and P4) -/

/-- `new A, 8` by agent 0 (A is 65). -/
def arrayA : State :=
  { State.reset with arrays := [(65, .fresh 8)], accesses := [⟨0, 65, true, []⟩] }

/-- The same with agent 1 the caller. -/
def sharedA : State := { arrayA with caller := 1 }

/-- The bytes of A, and the results, after the calls. -/
def bytesAfter (e : Endian) (calls : List (Agent × HostCall)) : Option (List Byte × List (Agent × Reply)) :=
  match performAll e calls arrayA with
  | .next t => (findArray t.arrays 65).map (fun arr => (arr.buffer.readBytes 0 8, t.results))
  | .fault f => nomatch f
  | .refused _ => none

/-- P4: the byte view after the three sets. -/
theorem test_byte_view_of_P4 :
    let calls := [(0, HostCall.set 65 (.decimal 3 0) 0x3FF8000000000000#64),
      (0, HostCall.set 65 (.decimal 0 0) 0x40EFFE0000000000#64), (0, HostCall.set 65 (.decimal 1 0) 0x3FB999999999999A#64)]
    bytesAfter .little calls = some ([0x00#8, 0x7C#8, 0x66#8, 0x2E#8, 0x00#8, 0x00#8, 0x00#8, 0x3E#8],
      [(0, .ok), (0, .ok), (0, .ok)]) ∧
    bytesAfter .big calls = some ([0x7C#8, 0x00#8, 0x2E#8, 0x66#8, 0x00#8, 0x00#8, 0x3E#8, 0x00#8],
      [(0, .ok), (0, .ok), (0, .ok)]) := by decide

/-- H4, H5: what `set` stored, `get` returns. -/
theorem test_get_after_set (e : Endian) :
    (bytesAfter e [(0, .set 65 (.decimal 3 0) 0x3FF8000000000000#64), (0, .get 65 (.decimal 30 1))]).map Prod.snd =
      some [(0, .ok), (0, .binary64 0x3FF8000000000000#64)] := by
  cases e <;> decide

/-- H6 to H9 (length 8 here): the two errors, and nothing written. -/
theorem test_index_errors (e : Endian) :
    bytesAfter e [(0, .get 65 (.decimal 8 0)), (0, .get 65 (.decimal (-1) 0)), (0, .set 65 (.decimal 8 0) 0x4000000000000000#64),
      (0, .get 65 (.decimal 25 1)), (0, .get 65 .nonNumeric)] =
    some ([0, 0, 0, 0, 0, 0, 0, 0], [(0, .error .indexOutOfRange), (0, .error .indexOutOfRange), (0, .error .indexOutOfRange),
      (0, .error .invalidIndex), (0, .error .invalidIndex)]) := by
  cases e <;> decide

/-- R176, H1 and H2 (length 8 here). -/
theorem test_lengths (e : Endian) :
    (bytesAfter e [(0, .length 65), (0, .byteLength 65)]).map Prod.snd = some [(0, .number 8), (0, .number 16)] := by
  cases e <;> decide

/-- R179: a byte-view write is seen by `get`: 0x3C00 is 1.0 (95 X12). -/
theorem test_byte_write_seen_by_get :
    (bytesAfter .big [(0, .writeBytes 65 4 [0x3C#8, 0x00#8]), (0, .get 65 (.decimal 2 0)), (0, .readBytes 65 3 2)]).map Prod.snd =
      some [(0, .ok), (0, .binary64 0x3FF0000000000000#64), (0, .bytes [0x00#8, 0x3C#8])] := by decide

/-- R60: agent 1 after agent 0's write, without and with a synchronisation. -/
theorem test_race_refused (e : Endian) : bytesAfter e [(1, .get 65 (.decimal 0 0))] = none := by cases e <;> decide
theorem test_synchronised_access (e : Endian) :
    (bytesAfter e [(0, .synchronise 1), (1, .get 65 (.decimal 0 0))]).map Prod.snd =
      some [(1, .binary64 0x0000000000000000#64)] := by
  cases e <;> decide

/-! ## The text of a line (R85, R86; 95 section 6) -/

theorem test_parse_encode : parseLine "encode -2.5    ; a comment".toList = some (.encode (.decimal true 25 (-1))) := by decide
theorem test_parse_pow2 : (parseLine "encode 2^-25".toList).map Line.assemble =
    some (.ok (.transaction (transactionWord 1#1 0x3E60000000000000#64))) := by decide
theorem test_parse_set : parseLine "set A, 8, 1e6".toList =
    some (.set 65 (.decimal 8 0) (.decimal false 1 6)) := by decide
theorem test_parse_index : parseLine "get A, 2.5".toList = some (.get 65 (.decimal 25 1)) := by decide
theorem test_parse_no_line : parseLine "jump A".toList = none := by decide
/-- 1e6 is 0x412E848000000000 (95 E31). -/
theorem test_literal_1e6 : (Literal64.decimal false 1 6).bits? = some 0x412E848000000000#64 := by decide

/-- 95 E14: 0x3FB999999999999A is 0.1, digit by digit. -/
theorem test_literal_hex :
    (Literal64.hex [3, 15, 11, 9, 9, 9, 9, 9, 9, 9, 9, 9, 9, 9, 9, 10]).bits? = some 0x3FB999999999999A#64 := by decide

/-- R234 with LATENCY = 2: the result of `decode 0x3C00` (95 X12) in the third cycle. -/
theorem test_clocked :
    (Stages.empty 2).outputs [some (.decode 0x3C00#64), none, none] = [none, none, some 0x3FF0000000000000#64] := by decide

/-! ## Witnesses: for each statement with hypotheses, something that meets them all -/

theorem witness_EveryWordIsATransaction :
    ((2 ^ 65 - 1 < 2 ^ 65) ∧ (2 ^ 65 - 1) % 2 = 1) ∧ ((2 ^ 65 - 2 < 2 ^ 65) ∧ (2 ^ 65 - 2) % 2 = 0) ∧ 2 ^ 65 ≤ 2 ^ 65 := by decide
theorem witness_TransactionGivesUnitResult :
    transactionOp 0#65 = 0#1 ∧ transactionOp 1#65 = 1#1 := by decide
theorem witness_DecodeIgnoresUpperBits :
    (0xFFFFFFFFFFFF7C01#64).extractLsb' 0 16 = (0x0000000000007C01#64).extractLsb' 0 16 := by decide
theorem witness_StepRunsPresentedTransaction :
    (State.reset.presentNext (.transaction 3#65)).pending = { agent := 0, request := .transaction 3#65 } :: [] ∧
    decodeTableWord 8 1 = some (.encode 0#64) := by decide
theorem witness_StepPerformsPresentedCall :
    (State.reset.presentNext (.call (.length 65))).pending = { agent := 0, request := .call (.length 65) } :: [] := by decide
theorem witness_NothingPresentedChangesNothing : State.reset.pending = [] := by decide
theorem witness_ConcurrentTransactionsAllComplete :
    ({ State.reset with pending := [⟨1, .transaction 3#65⟩, ⟨2, .transaction 4#65⟩] } : State).pending =
      [((1 : Agent), (3#65 : TransactionWord)), (2, 4#65)].map (fun p => { agent := p.1, request := .transaction p.2 }) := by decide
/-- A state that meets the invariant and whose step is no idle one. -/
theorem witness_StepKeepsInv :
    (arrayA.presentNext (.transaction 1#65)).Inv ∧
      step (arrayA.presentNext (.transaction 1#65)) = .next ((arrayA.issue 1#1 0#64).reply (.word 0#64)) :=
  ⟨by decide, rfl⟩

theorem witness_RoundRNE_tie_and_order :
    2 * |((roundRNE 3 1 * 2 ^ 1 : Nat) : Int) - (3 : Nat)| = 2 ^ 1 ∧ 3 ≤ 4 := by decide
theorem witness_EncodeNaNAndInfinity :
    (exp8 0x7FC00000#32 = 0xFF ∧ frac23 0x7FC00000#32 ≠ 0) ∧ (exp8 0xFF800000#32 = 0xFF ∧ frac23 0xFF800000#32 = 0) ∧
    (exp11 0x7FF0000000000001#64 = 0x7FF ∧ frac52 0x7FF0000000000001#64 ≠ 0) ∧
    (exp11 0xFFF0000000000000#64 = 0x7FF ∧ frac52 0xFFF0000000000000#64 = 0) := by decide
/-- The first and the last exponent of each path of stage 2. -/
theorem witness_stage2_paths :
    exp8 0x00000000#32 = 0 ∧ exp8 0x32FFFFFF#32 = 101 ∧ exp8 0x33000000#32 = 102 ∧ exp8 0x387FFFFF#32 = 112 ∧
    exp8 0x38800000#32 = 113 ∧ exp8 0x477FFFFF#32 = 142 ∧ exp8 0x47800000#32 = 143 ∧ exp8 0x7F7FFFFF#32 = 254 := by decide
/-- On the normal path: no carry; a carry below exponent 30; a carry that saturates (95 E24, E22, E28). -/
theorem witness_NormalPathRoundsAndCarries :
    roundRNE (frac23 0x477FE000#32) 13 ≠ 0x400 ∧
    (roundRNE (frac23 0x44FFF000#32) 13 = 0x400 ∧ exp8 0x44FFF000#32 ≤ 141) ∧
    (roundRNE (frac23 0x477FF000#32) 13 = 0x400 ∧ exp8 0x477FF000#32 = 142) := by decide
/-- On the subnormal path: newExp < 0, and the carry (95 E38, E35). -/
theorem witness_SubnormalPathKeepsCarry :
    (102 ≤ exp8 0x33800000#32 ∧ exp8 0x33800000#32 < 112) ∧ (exp8 0x387FE000#32 = 112 ∧ 0xFFE000 ≤ 2 ^ 23 + frac23 0x387FE000#32) := by
  decide
theorem witness_NarrowKeepsNaN : isNaN64 0xFFF4000000000001#64 = true := by decide

/-- The value of a binary64 pattern that is neither zero, subnormal, infinite nor NaN, from its fields. -/
theorem val64_normal {a : Double} {s : BitVec 1} {e f : Nat} (hs : sign64 a = s) (he : exp11 a = e) (hf : frac52 a = f)
    (h0 : e ≠ 0) (h1 : e ≠ 2047) : val64 a = .fin s ((2 ^ 52 + f : ℚ) * 2 ^ ((e : ℤ) - 1075)) := by
  subst hs; subst he; subst hf
  simp [val64, h0, h1]

theorem val64_1 : val64 0x3FF0000000000000#64 = .fin 0#1 1 := by
  rw [val64_normal (s := 0#1) (e := 1023) (f := 0) (by decide) (by decide) (by decide) (by decide) (by decide)]
  norm_num
theorem val64_2pow16 : val64 0xC0F0000000000000#64 = .fin 1#1 65536 := by
  rw [val64_normal (s := 1#1) (e := 1039) (f := 0) (by decide) (by decide) (by decide) (by decide) (by decide)]
  norm_num
theorem val64_2pow200 : val64 0x4C70000000000000#64 = .fin 0#1 (2 ^ 200) := by
  rw [val64_normal (s := 0#1) (e := 1223) (f := 0) (by decide) (by decide) (by decide) (by decide) (by decide)]
  norm_num
/-- 95 E26 and E27: the two sides of the overflow threshold. -/
theorem val64_E26 : val64 0x40EFFDFFEFFFFFFF#64 = .fin 0#1 (65520 - 2 ^ (-9 : ℤ) - 2 ^ (-37 : ℤ)) := by
  rw [val64_normal (s := 0#1) (e := 1038) (f := 0xFFDFFEFFFFFFF) (by decide) (by decide) (by decide) (by decide) (by decide)]
  norm_num
theorem val64_E27 : val64 0x40EFFDFFF0000000#64 = .fin 0#1 (65520 - 2 ^ (-9 : ℤ)) := by
  rw [val64_normal (s := 0#1) (e := 1038) (f := 0xFFDFFF0000000) (by decide) (by decide) (by decide) (by decide) (by decide)]
  norm_num
/-- 95 E43 and E44: the two sides of the underflow threshold. -/
theorem val64_E43 : val64 0x3E60000010000000#64 = .fin 0#1 (2 ^ (-25 : ℤ) + 2 ^ (-49 : ℤ)) := by
  rw [val64_normal (s := 0#1) (e := 998) (f := 0x0000010000000) (by decide) (by decide) (by decide) (by decide) (by decide)]
  norm_num
theorem val64_E44 : val64 0x3E60000010000001#64 = .fin 0#1 (2 ^ (-25 : ℤ) + 2 ^ (-49 : ℤ) + 2 ^ (-77 : ℤ)) := by
  rw [val64_normal (s := 0#1) (e := 998) (f := 0x0000010000001) (by decide) (by decide) (by decide) (by decide) (by decide)]
  norm_num
theorem val32_1 : val32 0x3F800000#32 = .fin 0#1 1 := by
  have h0 : exp8 0x3F800000#32 = 127 := by decide
  have h1 : frac23 0x3F800000#32 = 0 := by decide
  have h2 : sign32 0x3F800000#32 = 0#1 := by decide
  norm_num [val32, h0, h1, h2]
theorem val32_2pow16 : val32 0xC7800000#32 = .fin 1#1 65536 := by
  have h0 : exp8 0xC7800000#32 = 143 := by decide
  have h1 : frac23 0xC7800000#32 = 0 := by decide
  have h2 : sign32 0xC7800000#32 = 1#1 := by decide
  norm_num [val32, h0, h1, h2]
theorem val16_1 : val16 0x3C00#16 = .fin 0#1 1 := by
  have h0 : exp5 0x3C00#16 = 15 := by decide
  have h1 : frac10 0x3C00#16 = 0 := by decide
  have h2 : sign16 0x3C00#16 = 0#1 := by decide
  norm_num [val16, h0, h1, h2]

theorem witness_NarrowIsNearestSingle :
    (∃ v, val64 0x4C70000000000000#64 = .fin 0#1 v ∧ 2 ^ 128 - 2 ^ 103 ≤ v) ∧
    (∃ v, val64 0x3FF0000000000000#64 = .fin 0#1 v ∧ v < 2 ^ 128 - 2 ^ 103) :=
  ⟨⟨_, val64_2pow200, by norm_num⟩, ⟨_, val64_1, by norm_num⟩⟩
theorem witness_EncodeIsNearestOnSingles :
    (val64 0xC0F0000000000000#64 = .fin 1#1 65536 ∧ val32 0xC7800000#32 = .fin 1#1 65536 ∧ (65520 : ℚ) ≤ 65536) ∧
    (val64 0x3FF0000000000000#64 = .fin 0#1 1 ∧ val32 0x3F800000#32 = .fin 0#1 1 ∧ (1 : ℚ) < 65520) :=
  ⟨⟨val64_2pow16, val32_2pow16, by norm_num⟩, ⟨val64_1, val32_1, by norm_num⟩⟩
theorem witness_EncodeIsExactOnHalves :
    isNaN16 0x3C00#16 = false ∧ val64 0x3FF0000000000000#64 = val16 0x3C00#16 :=
  ⟨by decide, by rw [val64_1, val16_1]⟩
theorem witness_OverflowThreshold :
    (∃ v, val64 0x40EFFDFFF0000000#64 = .fin 0#1 v ∧ 65520 - 2 ^ (-9 : ℤ) ≤ v) ∧
    (∃ v, val64 0x40EFFDFFEFFFFFFF#64 = .fin 0#1 v ∧ 65504 ≤ v ∧ v < 65520 - 2 ^ (-9 : ℤ)) :=
  ⟨⟨_, val64_E27, by norm_num⟩, ⟨_, val64_E26, by norm_num, by norm_num⟩⟩
theorem witness_UnderflowThreshold :
    (∃ v, val64 0x3E60000010000000#64 = .fin 0#1 v ∧ v ≤ 2 ^ (-25 : ℤ) + 2 ^ (-49 : ℤ)) ∧
    (∃ v, val64 0x3E60000010000001#64 = .fin 0#1 v ∧ 2 ^ (-25 : ℤ) + 2 ^ (-49 : ℤ) < v ∧ v ≤ 2 ^ (-24 : ℤ)) :=
  ⟨⟨_, val64_E43, by norm_num⟩, ⟨_, val64_E44, by norm_num, by norm_num⟩⟩
theorem witness_DoubleRoundingOnlyAtMidpoints :
    val64 0x3FF0000000000000#64 = .fin 0#1 1 ∧ val32 (narrow 0x3FF0000000000000#64) = .fin 0#1 1 ∧ (1 : ℚ) < 65520 := by
  refine ⟨val64_1, ?_, by norm_num⟩
  have : narrow 0x3FF0000000000000#64 = 0x3F800000#32 := by decide
  rw [this, val32_1]
theorem witness_EncodeErrorBound :
    val64 0x3FF0000000000000#64 = .fin 0#1 1 ∧ (1 : ℚ) < 65520 - 2 ^ (-9 : ℤ) ∧ (2 : ℚ) ^ (0 : ℤ) ≤ 1 ∧
      (1 : ℚ) < 2 ^ ((0 : ℤ) + 1) :=
  ⟨val64_1, by norm_num, by norm_num, by norm_num⟩
theorem witness_EncodeIsMonotone :
    val64 0x3FF0000000000000#64 = .fin 0#1 1 ∧ val64 0x4C70000000000000#64 = .fin 0#1 (2 ^ 200) ∧ (1 : ℚ) ≤ 2 ^ 200 :=
  ⟨val64_1, val64_2pow200, by norm_num⟩

theorem witness_Decode_classes :
    (exp5 0x8000#16 = 0 ∧ frac10 0x8000#16 = 0) ∧ (exp5 0x83FF#16 = 0 ∧ frac10 0x83FF#16 ≠ 0) ∧
    (1 ≤ exp5 0x0400#16 ∧ exp5 0x0400#16 ≤ 30) ∧ (1 ≤ exp5 0x7BFF#16 ∧ exp5 0x7BFF#16 ≤ 30) ∧
    (exp5 0xFC00#16 = 0x1F ∧ frac10 0xFC00#16 = 0) ∧ isNaN16 0x7C01#16 = true ∧ isNaN16 0x7C00#16 = false := by decide
theorem witness_DecodeFields :
    exp5 0x0001#16 = 0 ∧ 2 ^ 0 ≤ frac10 0x0001#16 ∧ frac10 0x0001#16 < 2 ^ (0 + 1) ∧
    exp5 0x03FF#16 = 0 ∧ 2 ^ 9 ≤ frac10 0x03FF#16 ∧ frac10 0x03FF#16 < 2 ^ (9 + 1) := by decide
theorem witness_DecodeInjective :
    isNaN16 0x3C00#16 = false ∧ fp16ToFp64 0x3C00#16 = fp16ToFp64 0x3C00#16 := by decide

theorem witness_ConstructGivesZeroSlots : (HostNumber.decimal 80 1).toInt? = some ((8 : Nat) : Int) := by decide
theorem witness_GetAnswersDecodedSlot :
    arrayA.CanAccess 65 false (.fresh 8) ∧ HostNumber.nonNumeric.toInt? = none ∧
    ((HostNumber.decimal 8 0).toInt? = some 8 ∧ ((8 : Nat) : Int) ≤ 8) ∧
    ((HostNumber.decimal 7 0).toInt? = some ((7 : Nat) : Int) ∧ 7 < (HalfArray.fresh 8).length) :=
  ⟨⟨by decide, by decide⟩, by decide⟩
theorem witness_SetStoresEncodedValue :
    (HalfArray.fresh 8).Inv ∧ arrayA.CanAccess 65 true (.fresh 8) ∧ arrayA.CanAccess 65 false (.fresh 8) ∧
    ((HostNumber.decimal 7 0).toInt? = some ((7 : Nat) : Int) ∧ 7 < (HalfArray.fresh 8).length) ∧
    (HostNumber.decimal 25 1).toInt? = none ∧
    ((HostNumber.decimal (-1) 0).toInt? = some (-1) ∧ (-1 : Int) < 0) ∧
    ((HostNumber.decimal 8 0).toInt? = some 8 ∧ ((HalfArray.fresh 8).length : Int) ≤ 8) :=
  ⟨by decide, ⟨by decide, by decide⟩, ⟨by decide, by decide⟩, by decide⟩
theorem witness_FailedCallLeavesEverything :
    arrayA.CanAccess 65 false (.fresh 8) ∧
    (∀ i : Nat, (HostNumber.decimal 8 0).toInt? = some (i : Int) → (HalfArray.fresh 8).length ≤ i) := by
  refine ⟨⟨by decide, by decide⟩, fun i hi => ?_⟩
  have h : (HostNumber.decimal 8 0).toInt? = some 8 := by decide
  rw [h] at hi
  have : (8 : Int) = i := Option.some.inj hi
  simp only [HalfArray.fresh_length]
  omega
theorem witness_LengthAccessors : arrayA.CanAccess 65 false (.fresh 8) := ⟨by decide, by decide⟩
theorem witness_ByteOrderOfElement : Memory.wf [(1, 0x7C#8)] := by decide
theorem witness_ByteViewIsCoherent :
    arrayA.CanAccess 65 (!([0x3C#8, 0x00#8] : List Byte).isEmpty) (.fresh 8) ∧ (HalfArray.fresh 8).Inv ∧
    14 + ([0x3C#8, 0x00#8] : List Byte).length ≤ 2 * (HalfArray.fresh 8).length :=
  ⟨⟨by decide, by decide⟩, by decide, by decide⟩
/-- The last byte and the first offset outside, for a read and for a write of one byte. -/
theorem witness_ByteViewReadsBytes :
    arrayA.CanAccess 65 false (.fresh 8) ∧ 15 + 1 ≤ 2 * (HalfArray.fresh 8).length ∧ 2 * (HalfArray.fresh 8).length < 16 + 1 ∧
    arrayA.CanAccess 65 (!([0x3C#8] : List Byte).isEmpty) (.fresh 8) ∧
    2 * (HalfArray.fresh 8).length < 16 + ([0x3C#8] : List Byte).length :=
  ⟨⟨by decide, by decide⟩, by decide, by decide, ⟨by decide, by decide⟩, by decide⟩
theorem witness_EveryOperationCompletes :
    arrayA.CanAccess 65 true (.fresh 8) ∧ (HostNumber.decimal 0 0).isLength = true :=
  ⟨⟨by decide, by decide⟩, by decide⟩
theorem witness_NeverConstructedIsRefused : findArray arrayA.arrays 66 = none := by decide
theorem witness_UnsynchronisedAccessIsRefused :
    findArray sharedA.arrays 65 = some (.fresh 8) ∧ (⟨0, 65, true, []⟩ : Access) ∈ sharedA.accesses ∧
    (0 : Agent) ≠ sharedA.caller ∧ sharedA.caller ∉ (⟨0, 65, true, []⟩ : Access).orderedBefore ∧
    (HostNumber.decimal 7 0).toInt? = some ((7 : Nat) : Int) ∧ 7 < (HalfArray.fresh 8).length := by decide
/-- Agent 0 constructed A, synchronised with agent 1 and then only read it: the read is the access that a write of agent 1's races with. -/
theorem witness_UnsynchronisedAccessIsRefused_after_a_read :
    let s : State := { sharedA with accesses := [⟨0, 65, true, [1]⟩, ⟨0, 65, false, []⟩] }
    findArray s.arrays 65 = some (.fresh 8) ∧ (⟨0, 65, false, []⟩ : Access) ∈ s.accesses ∧ (0 : Agent) ≠ s.caller ∧
    s.caller ∉ (⟨0, 65, false, []⟩ : Access).orderedBefore ∧
    ((HostNumber.decimal 7 0).toInt? = some ((7 : Nat) : Int) ∧ 7 < (HalfArray.fresh 8).length) ∧
    ([0x3C#8] : List Byte) ≠ [] := by decide
/-- Agent 0 constructed A and synchronised with agent 1. -/
theorem witness_SynchronisedAgentsMayShare :
    let s : State := { arrayA with accesses := [⟨0, 65, true, [1]⟩] }
    (0 : Agent) ≠ 1 ∧ findArray s.arrays 65 = some (.fresh 8) ∧ validIndex (.fresh 8) (.decimal 0 0) = true ∧
    State.races { s with caller := 0 } 65 true = false ∧ State.races { s with caller := 1 } 65 false = false := by decide
/-- P4's calls from its construction on: slot 3 is expected to hold 0x3E00. -/
theorem witness_SlotHoldsLastAssignedValue (e : Endian) :
    (HostNumber.decimal 8 0).toInt? = some ((8 : Nat) : Int) ∧
    (∃ s t, execCall e (.construct 65 (.decimal 8 0)) State.reset = .next s ∧
      performAll e [(0, .set 65 (.decimal 3 0) 0x3FF8000000000000#64), (0, .get 65 (.decimal 15 1))] s = .next t) ∧
    expectedSlot 65 3 (8, some 0x0000#16)
      [(0, .set 65 (.decimal 3 0) 0x3FF8000000000000#64), (0, .get 65 (.decimal 15 1))] = (8, some 0x3E00#16) :=
  ⟨by decide, ⟨_, _, rfl, rfl⟩, by decide⟩
theorem witness_LineRunsAsItsRequest :
    (∀ l : Line, (State.reset.presentNext (.line l)).pending = { agent := 0, request := .line l } :: []) ∧
    (Literal64.pow2 0).bits? = some 0x3FF0000000000000#64 ∧ literal16Bits? [3, 12, 0, 0] = some 0x3C00#16 ∧
    (Literal64.pow2 1024).bits? = none ∧ literal16Bits? [3] = none :=
  ⟨fun _ => rfl, by decide, by decide, by decide, by decide⟩
theorem witness_ClockedResultAfterLatency :
    ([some (Instr.decode 0#64), none] : List (Option Instr))[0]? = some (some (.decode 0#64)) ∧ 0 + 1 < 2 ∧ 0 < 1 ∧ 0 < 2 := by decide

end Sys2Proof.Tests
end

section
/-!
PROOFS. RoundRNE as a rounding (R17), and the step on a presented harness call (R6, R31, R53).
-/

namespace Sys2Proof.Machine

/-- RoundRNE as its quotient and one decision (R17): one more when the remainder is above half of 2^k, or at half with an odd quotient.
For `k = 0` the remainder is 0, so the early answer of the definition needs no case of its own. -/
theorem roundRNE_eq (m k : Nat) :
    roundRNE m k = m / 2 ^ k +
      if 2 ^ k < 2 * (m % 2 ^ k) ∨ (2 * (m % 2 ^ k) = 2 ^ k ∧ m / 2 ^ k % 2 = 1) then 1 else 0 := by
  cases k with
  | zero => simp [roundRNE, Nat.mod_one]
  | succ k =>
    simp only [roundRNE, Nat.add_one_ne_zero, if_false, Nat.shiftRight_eq_div_pow, Nat.add_sub_cancel]
    have hpow : 2 ^ (k + 1) = 2 * 2 ^ k := Nat.pow_succ'
    split_ifs <;> omega

/-- The error of RoundRNE in halves of 2^k, on the quotient and remainder of m: at most one half, and one half only with an even result. -/
theorem roundRNE_error (m k : Nat) :
    2 * |((roundRNE m k * 2 ^ k : Nat) : Int) - m| ≤ 2 ^ k ∧
    (2 * |((roundRNE m k * 2 ^ k : Nat) : Int) - m| = 2 ^ k → roundRNE m k % 2 = 0) := by
  have hm : m / 2 ^ k * 2 ^ k + m % 2 ^ k = m := Nat.div_add_mod' m (2 ^ k)
  have hlt : m % 2 ^ k < 2 ^ k := Nat.mod_lt m (Nat.two_pow_pos k)
  have hcast : ((2 ^ k : Nat) : Int) = 2 ^ k := by push_cast; rfl
  rw [← hcast, roundRNE_eq]
  split_ifs with hup
  · have habs : |(((m / 2 ^ k + 1) * 2 ^ k : Nat) : Int) - m| = ((2 ^ k - m % 2 ^ k : Nat) : Int) := by
      rw [Nat.succ_mul, abs_of_nonneg (by omega)]
      omega
    rw [habs]
    omega
  · have habs : |(((m / 2 ^ k + 0) * 2 ^ k : Nat) : Int) - m| = ((m % 2 ^ k : Nat) : Int) := by
      rw [Nat.add_zero, abs_of_nonpos (by omega)]
      omega
    rw [habs]
    omega

/-- A larger quotient leaves room for the rounding up of the smaller; with equal quotients the remainders are in the order of the numbers. -/
theorem roundRNE_mono {m m' : Nat} (k : Nat) (h : m ≤ m') : roundRNE m k ≤ roundRNE m' k := by
  obtain hlt | heq := (Nat.div_le_div_right (c := 2 ^ k) h).lt_or_eq
  · calc roundRNE m k ≤ m / 2 ^ k + 1 := roundRNE_le m k
      _ ≤ m' / 2 ^ k := hlt
      _ ≤ roundRNE m' k := roundRNE_ge m' k
  · have hm : m / 2 ^ k * 2 ^ k + m % 2 ^ k = m := Nat.div_add_mod' m (2 ^ k)
    have hm' : m' / 2 ^ k * 2 ^ k + m' % 2 ^ k = m' := Nat.div_add_mod' m' (2 ^ k)
    rw [← heq] at hm'
    have hrem : m % 2 ^ k ≤ m' % 2 ^ k := by omega
    rw [roundRNE_eq, roundRNE_eq, ← heq]
    split_ifs <;> omega

/-- Settles O15: RoundRNE is its quotient and one decision, whose error and order are read off the remainder. -/
theorem roundRNEIsNearestEven : Obligations.RoundRNEIsNearestEven :=
  ⟨roundRNE_error, fun _ _ k => roundRNE_mono k⟩

/-- Taking up a presented harness call: it is next, its agent is the caller, and the rest stays pending (R31). -/
theorem State.fetch_call {s : State} {g : Agent} {c : HostCall} {rest : List Presented}
    (h : s.pending = { agent := g, request := .call c } :: rest) :
    s.fetch = .call c { s with pending := rest, caller := g } := by
  simp only [State.fetch, h, Request.action]

/-- Settles O9: the fetch takes up the call, and the step performs it under HOST_ENDIAN (R53). -/
theorem stepPerformsPresentedCall : Obligations.StepPerformsPresentedCall := by
  intro s g c rest h
  simp only [step, State.fetch_call h]

end Sys2Proof.Machine
end

section
/-!
PROOFS. The state: what a transaction does to it (R35, R80), how a step takes a transaction up (R31, R81), a run of the transactions of
any agents (R36, R211), construction (R39, R171), and the state after power-on (R38, R232).
-/

namespace Sys2Proof.Machine

/-! ## What a transaction does to the state -/

/-- A transaction word is its two fields side by side (R80). -/
theorem transactionWord_fields (w : TransactionWord) : transactionWord (transactionOp w) (transactionOperand w) = w :=
  BitVec.extractLsb'_append_extractLsb' (w := 64) (len := 1)

/-- The decoder drops no bit of the word: `op` picks the constructor, from which the encoder reads `op` back (R81, R82). -/
theorem encodeInstr_decodeWord (w : TransactionWord) : encodeInstr (decodeWord w) = w := by
  have hfields := transactionWord_fields w
  obtain hop | hop := BitVec.eq_zero_or_eq_one (transactionOp w)
  · simpa [decodeWord, encodeInstr, hop] using hfields
  · simpa [decodeWord, encodeInstr, hop] using hfields

/-- The result of a decoded word is the wrapper's on its two fields (R80). -/
theorem resultOf_decodeWord (w : TransactionWord) :
    resultOf (decodeWord w) = transaction (transactionOp w) (transactionOperand w) := by
  rw [resultOf_eq_transaction, encodeInstr_decodeWord]

/-- A transaction records its word, returns its result to the caller, and touches no other field (R35, R80). -/
theorem exec_eq (i : Instr) (s : State) :
    exec i s = .next { s with
      issued := s.issued ++ [encodeInstr i]
      results := s.results ++ [(s.caller, .word (resultOf i))] } := by
  cases i with
  | encode a => rfl
  | decode a => rfl

/-- Settles O7: `resultOf i` reads the operand and no state, and it is what `exec` adds to the results. -/
theorem resultIsFunctionOfOperand : Obligations.ResultIsFunctionOfOperand :=
  fun i => ⟨resultOf i, fun s => ⟨_, exec_eq i s, rfl, rfl, rfl, rfl, rfl⟩⟩

/-! ## A step on a presented transaction -/

/-- Taking up a presented transaction: its word is decoded, its agent is the caller, and the rest stays pending (R31, R81). -/
theorem State.fetch_transaction {s : State} {g : Agent} {w : TransactionWord} {rest : List Presented}
    (h : s.pending = { agent := g, request := .transaction w } :: rest) :
    s.fetch = .transaction (decodeWord w) { s with pending := rest, caller := g } := by
  simp only [State.fetch, h, Request.action]

theorem step_of_pending_transaction {s : State} {g : Agent} {w : TransactionWord} {rest : List Presented}
    (h : s.pending = { agent := g, request := .transaction w } :: rest) :
    step s = exec (decodeWord w) { s with pending := rest, caller := g } := by
  simp only [step, State.fetch_transaction h]

/-- The table's decoder answers what the word's own decoder answers on the low bits. -/
theorem decodeWord_of_decodeTableWord {nbits w : Nat} {i : Instr} (h : decodeTableWord nbits w = some i) :
    decodeWord (BitVec.ofNat 65 (w % 2 ^ nbits)) = i := by
  unfold decodeTableWord decodeNumber at h
  by_cases hw : w % 2 ^ nbits < 2 ^ 65
  · simpa only [if_pos hw, Option.some.injEq] using h
  · simp only [if_neg hw, reduceCtorEq] at h

/-- Taking up the word that was put in front of the queue gives the state before it was put there. -/
theorem step_withFetchWord (s : State) (nbits w : Nat) :
    step (s.withFetchWord nbits w) = exec (decodeWord (BitVec.ofNat 65 (w % 2 ^ nbits))) s :=
  step_of_pending_transaction (s.presentNext_pending _)

/-- Settles O8: the fetch decodes the presented word, and a word put in front is the one presented. -/
theorem stepRunsPresentedTransaction : Obligations.StepRunsPresentedTransaction := by
  refine ⟨fun s g w rest h => step_of_pending_transaction h, fun s nbits w i h => ?_⟩
  rw [step_withFetchWord, decodeWord_of_decodeTableWord h]

/-! ## A run of transactions -/

/-- The state in which the transaction `w` of the agent `g` has completed, with `rest` still to come. -/
def State.afterTransaction (s : State) (g : Agent) (w : TransactionWord) (rest : List Presented) : State :=
  { s with
    pending := rest
    caller := g
    issued := s.issued ++ [w]
    results := s.results ++ [(g, .word (transaction (transactionOp w) (transactionOperand w)))] }

section
variable (s : State) (g : Agent) (w : TransactionWord) (rest : List Presented)

@[simp] theorem State.afterTransaction_issued : (s.afterTransaction g w rest).issued = s.issued ++ [w] := rfl
@[simp] theorem State.afterTransaction_results : (s.afterTransaction g w rest).results =
    s.results ++ [(g, .word (transaction (transactionOp w) (transactionOperand w)))] := rfl

end

/-- A presented transaction completes in one step, whatever the state. -/
theorem step_eq_afterTransaction {s : State} {g : Agent} {w : TransactionWord} {rest : List Presented}
    (h : s.pending = { agent := g, request := .transaction w } :: rest) : step s = .next (s.afterTransaction g w rest) := by
  rw [step_of_pending_transaction h, exec_eq, encodeInstr_decodeWord, resultOf_decodeWord]
  rfl

/-- A run goes on from the state that its first step answers. -/
theorem run_succ_of_step {s s' : State} (k : Nat) (h : step s = .next s') :
    Host.Core.run Sys2Proof.core (k + 1) s = Host.Core.run Sys2Proof.core k s' := by
  have hcore : Sys2Proof.core.step s = .next s' := h
  simp only [Host.Core.run, hcore]

/-- Settles O11, by induction on the transactions: the first completes in one step and leaves the others pending, in a state from which
the induction hypothesis runs them. -/
theorem concurrentTransactionsAllComplete : Obligations.ConcurrentTransactionsAllComplete := by
  intro s ps
  induction ps generalizing s with
  | nil =>
    intro hpending
    exact ⟨s, rfl, hpending, rfl, rfl, by simp, by simp⟩
  | cons p rest ih =>
    intro hpending
    obtain ⟨t, hrun, hdone, harrays, haccesses, hissued, hresults⟩ := ih (s.afterTransaction p.1 p.2 _) rfl
    refine ⟨t, ?_, hdone, harrays, haccesses, ?_, ?_⟩
    · rw [List.length_cons, run_succ_of_step _ (step_eq_afterTransaction hpending), hrun]
    · simp [hissued]
    · simp [hresults]

/-! ## Construction -/

/-- What `construct` answers for a length within its contract (R171). -/
theorem execConstruct_ok {n : HostNumber} {k : Nat} (name : ArrayName) (s : State) (h : n.toInt? = some (k : Int)) :
    execConstruct name n s =
      .next (((s.putArray name (.fresh k)).forgetAccesses name).recordAccess name true) := by
  have hk : ¬(k : Int) < 0 := by omega
  simp only [execConstruct, h, if_neg hk, Int.toNat_natCast]

/-- Settles O42: the name is bound to the fresh array, and the frame is that of binding a name and keeping the record of accesses. -/
theorem constructGivesZeroSlots : Obligations.ConstructGivesZeroSlots := by
  intro e s name n k hlength
  refine ⟨_, .fresh k, execConstruct_ok name s hlength, ?_, rfl, fun i => HalfArray.fresh_slot e k i, fun b => rfl,
    fun other hother => ?_, rfl, rfl, rfl, rfl⟩
  · exact findArray_putArray_same s.arrays name (.fresh k)
  · exact findArray_putArray_other s.arrays (.fresh k) hother

/-! ## After power-on -/

/-- Settles O14: both lists are empty, so every lookup ends at once. -/
theorem resetHoldsNothing : Obligations.ResetHoldsNothing :=
  ⟨rfl, rfl, fun _ => rfl⟩

/-- Settles O13: every part of the invariant speaks of the members of a list that is empty after power-on. -/
theorem resetMeetsInv : Obligations.ResetMeetsInv := by
  obtain ⟨harrays, haccesses, -⟩ := resetHoldsNothing
  simp only [Obligations.ResetMeetsInv, State.Inv, RaceFree, harrays, haccesses]
  exact ⟨List.nodup_nil, nofun, nofun, .nil⟩

end Sys2Proof.Machine
end

section
/-!
PROOFS. The memory of the harness: the invariant that every step keeps (R51, R60, R170, R232), the bytes of an element under each byte
order (R52), the byte view (R51, R179), and which accesses of two agents are refused and which admitted (R60, R181).
-/

namespace Sys2Proof.Machine

/-! ## The record of accesses (R60, log 5) -/

/-- What an agent knows of an access, as a proposition. -/
theorem Access.knownTo_eq_true (x : Access) (g : Agent) : x.knownTo g = true ↔ x.agent = g ∨ g ∈ x.orderedBefore := by
  simp [Access.knownTo]

/-- An access is free of races exactly when the caller knows of every earlier one that it could race with. -/
theorem State.races_eq_false (s : State) (name : ArrayName) (w : Bool) :
    s.races name w = false ↔
      ∀ x ∈ s.accesses, x.array = name → (x.writes = true ∨ w = true) → x.knownTo s.caller = true := by
  rw [← Bool.not_eq_true, State.races_eq_true]
  simp only [Access.knownTo_eq_true, not_exists, not_and, not_not, or_iff_not_imp_left]
  exact forall₂_congr fun x _ => forall_congr' fun _ => imp.swap

/-- A synchronisation takes no knowledge from any agent. -/
theorem Access.knownTo_publish {x : Access} {g : Agent} (source target : Agent) (h : x.knownTo g = true) :
    (x.publish source target).knownTo g = true := by
  obtain ⟨hagent, -, -, hordered⟩ := x.publish_fields source target
  rw [Access.knownTo_eq_true] at h ⊢
  exact h.imp hagent.trans (hordered g)

/-- What the source of a synchronisation knows of, its target knows of afterwards. -/
theorem Access.knownTo_publish_target {x : Access} {source target : Agent} (h : x.knownTo source = true) :
    (x.publish source target).knownTo target = true := by
  by_cases ht : x.knownTo target = true
  · exact Access.knownTo_publish source target ht
  · have hpublish : x.publish source target = { x with orderedBefore := target :: x.orderedBefore } := by
      simp [Access.publish, h, ht]
    rw [hpublish, Access.knownTo_eq_true]
    exact .inr List.mem_cons_self

/-- After a synchronisation its partner's access races with none that the partner or the caller knew of before. -/
theorem State.races_synchronise {s : State} {partner : Agent} {name : ArrayName} {w : Bool}
    (h : ∀ x ∈ s.accesses, x.array = name → (x.writes = true ∨ w = true) →
      x.knownTo partner = true ∨ x.knownTo s.caller = true) :
    State.races { s.synchronise partner with caller := partner } name w = false := by
  rw [State.races_eq_false]
  simp only [State.synchronise_accesses, List.forall_mem_map]
  intro x hx harray hwrites
  obtain ⟨-, hname, hkind, -⟩ := x.publish_fields s.caller partner
  rw [hname] at harray
  rw [hkind] at hwrites
  obtain hpartner | hcaller := h x hx harray hwrites
  · exact Access.knownTo_publish s.caller partner hpartner
  · exact Access.knownTo_publish_target hcaller

/-! ## What keeps the invariant of an array (R51) -/

theorem HalfArray.fresh_inv (n : Nat) : (HalfArray.fresh n).Inv :=
  ⟨⟨.nil, nofun⟩, nofun⟩

theorem HalfArray.setSlot_inv {arr : HalfArray} {i : Nat} (e : Endian) (h : Half) (harr : arr.Inv) (hi : i < arr.length) :
    (arr.setSlot e i h).Inv := by
  obtain ⟨hwf, hbound⟩ := harr
  have hlast : 2 * i + 1 < arr.byteLength := by
    unfold HalfArray.byteLength
    omega
  exact ⟨memWrite_wf e arr.buffer (2 * i) h hwf, memWrite_bound hlast hbound⟩

theorem HalfArray.writeBytes_inv {arr : HalfArray} {offset : Nat} {bytes : List Byte} (harr : arr.Inv)
    (hb : offset + bytes.length ≤ arr.byteLength) : HalfArray.Inv { arr with buffer := arr.buffer.writeBytes offset bytes } := by
  obtain ⟨hwf, hbound⟩ := harr
  exact ⟨Memory.writeBytes_wf arr.buffer offset bytes hwf, Memory.writeBytes_bound hb hbound⟩

theorem lt_length_of_checkIndex {arr : HalfArray} {index : HostNumber} {i : Nat} (h : checkIndex arr index = .ok i) :
    i < arr.length := by
  rcases checkIndex_cases arr index with ⟨-, hc⟩ | ⟨j, -, -, hc⟩ | ⟨j, -, hj, hc⟩
  · simp [hc] at h
  · simp [hc] at h
  · rw [hc] at h
    cases h
    exact hj

/-! ## What keeps the invariant of the machine -/

/-- A constructed array is among the bound names. -/
theorem mem_names_of_findArray {arrays : List (ArrayName × HalfArray)} {name : ArrayName} {arr : HalfArray}
    (h : findArray arrays name = some arr) : name ∈ arrays.map Prod.fst :=
  List.mem_map_of_mem (findArray_mem h)

/-- A name bound anew takes no other name away. -/
theorem mem_names_putArray {arrays : List (ArrayName × HalfArray)} {other : ArrayName} (name : ArrayName) (arr : HalfArray)
    (h : other ∈ arrays.map Prod.fst) : other ∈ (putArray arrays name arr).map Prod.fst := by
  rw [putArray_names]
  split
  · exact h
  · exact List.mem_append_left [name] h

theorem State.Inv.findArray_inv {s : State} {name : ArrayName} {arr : HalfArray} (h : s.Inv)
    (hf : findArray s.arrays name = some arr) : arr.Inv := by
  obtain ⟨-, hbuffers, -, -⟩ := h
  exact hbuffers (name, arr) (findArray_mem hf)

theorem State.Inv.putArray {s : State} {arr : HalfArray} (name : ArrayName) (h : s.Inv) (harr : arr.Inv) :
    (s.putArray name arr).Inv := by
  obtain ⟨hnames, hbuffers, hconstructed, hraces⟩ := h
  refine ⟨?_, fun p hp => ?_, fun x hx => mem_names_putArray name arr (hconstructed x hx), hraces⟩
  · rw [State.putArray_arrays, putArray_names]
    split
    · exact hnames
    · next hnew => exact List.nodup_append_comm.mp (List.nodup_cons.mpr ⟨hnew, hnames⟩)
  · rcases mem_putArray hp with rfl | hp
    · exact harr
    · exact hbuffers p hp

/-- An access of the caller that races with none before it (R60), to a constructed array (R232), may be recorded. -/
theorem State.Inv.recordAccess {s : State} {name : ArrayName} {w : Bool} (h : s.Inv) (hname : name ∈ s.arrays.map Prod.fst)
    (hr : s.races name w = false) : (s.recordAccess name w).Inv := by
  obtain ⟨hnames, hbuffers, hconstructed, hraces⟩ := h
  rw [State.races_eq_false] at hr
  refine ⟨hnames, hbuffers, ?_, ?_⟩
  · rw [State.recordAccess_accesses, List.forall_mem_append]
    exact ⟨hconstructed, List.forall_mem_singleton.mpr hname⟩
  · rw [State.recordAccess_accesses, RaceFree, List.pairwise_append]
    refine ⟨hraces, List.pairwise_singleton _ _, fun x hx y hy harray hagent hwrites => ?_⟩
    rw [List.mem_singleton.mp hy] at harray hagent hwrites ⊢
    exact ((x.knownTo_eq_true s.caller).mp (hr x hx harray hwrites)).resolve_left hagent

theorem State.Inv.forgetAccesses {s : State} (name : ArrayName) (h : s.Inv) : (s.forgetAccesses name).Inv := by
  obtain ⟨hnames, hbuffers, hconstructed, hraces⟩ := h
  exact ⟨hnames, hbuffers, fun x hx => hconstructed x (List.mem_of_mem_filter hx), hraces.filter _⟩

/-- Once its accesses are forgotten, an access to a name races with none (log 6). -/
theorem State.races_forgetAccesses (s : State) (name : ArrayName) (w : Bool) :
    (s.forgetAccesses name).races name w = false := by
  rw [State.races_eq_false]
  intro x hx harray
  simp [harray] at hx

/-- A synchronisation leaves agent, array and kind of each access, and only adds to what it is ordered before. -/
theorem State.Inv.synchronise {s : State} (partner : Agent) (h : s.Inv) : (s.synchronise partner).Inv := by
  obtain ⟨hnames, hbuffers, hconstructed, hraces⟩ := h
  refine ⟨hnames, hbuffers, ?_, ?_⟩
  · rw [State.synchronise_accesses, List.forall_mem_map]
    intro x hx
    obtain ⟨-, hname, -, -⟩ := x.publish_fields s.caller partner
    rw [hname]
    exact hconstructed x hx
  · rw [State.synchronise_accesses, RaceFree, List.pairwise_map]
    refine hraces.imp fun {x y} hxy => ?_
    obtain ⟨hagentx, hnamex, hkindx, hordered⟩ := x.publish_fields s.caller partner
    obtain ⟨hagenty, hnamey, hkindy, -⟩ := y.publish_fields s.caller partner
    rw [hagentx, hnamex, hkindx, hagenty, hnamey, hkindy]
    exact fun harray hagent hwrites => hordered _ (hxy harray hagent hwrites)

/-! ## Every step keeps the invariant

An update of `pending`, `caller`, `issued` or `results` keeps it by definition: it speaks of `arrays` and `accesses` only. -/

theorem execConstruct_inv {name : ArrayName} {n : HostNumber} {s t : State} (h : s.Inv)
    (hnext : execConstruct name n s = .next t) : t.Inv := by
  obtain ⟨k, -, -, rfl⟩ := execConstruct_next hnext
  have hbound : ((s.putArray name (.fresh k.toNat)).forgetAccesses name).Inv :=
    (h.putArray name (HalfArray.fresh_inv k.toNat)).forgetAccesses name
  exact hbound.recordAccess (mem_names_of_findArray (findArray_putArray_same s.arrays name _))
    (State.races_forgetAccesses _ name true)

theorem execGet_inv {e : Endian} {name : ArrayName} {index : HostNumber} {s t : State} (h : s.Inv)
    (hnext : execGet e name index s = .next t) : t.Inv := by
  obtain ⟨arr, hf, hr, ⟨err, -, rfl⟩ | ⟨i, -, rfl⟩⟩ := execGet_next hnext
  · exact h.recordAccess (mem_names_of_findArray hf) hr
  · exact h.recordAccess (mem_names_of_findArray hf) hr

theorem execSet_inv {e : Endian} {name : ArrayName} {index : HostNumber} {value : Double} {s t : State} (h : s.Inv)
    (hnext : execSet e name index value s = .next t) : t.Inv := by
  obtain ⟨arr, hf, hr, hcases⟩ := execSet_next hnext
  have hrecorded := h.recordAccess (mem_names_of_findArray hf) hr
  obtain ⟨err, -, rfl⟩ | ⟨i, hi, rfl⟩ := hcases
  · exact hrecorded
  · exact hrecorded.putArray name
      (HalfArray.setSlot_inv e (fp64ToFp16 value) (h.findArray_inv hf) (lt_length_of_checkIndex hi))

theorem execWriteBytes_inv {name : ArrayName} {offset : Nat} {bytes : List Byte} {s t : State} (h : s.Inv)
    (hnext : execWriteBytes name offset bytes s = .next t) : t.Inv := by
  obtain ⟨arr, hf, hr, hb, rfl⟩ := execWriteBytes_next hnext
  exact (h.recordAccess (mem_names_of_findArray hf) hr).putArray name
    (HalfArray.writeBytes_inv (h.findArray_inv hf) hb)

theorem readCall_inv {e : Endian} {name : ArrayName} {c : HostCall} {s t : State} (h : s.Inv)
    (hc : c = .length name ∨ c = .byteLength name ∨ ∃ offset count, c = .readBytes name offset count)
    (hnext : execCall e c s = .next t) : t.Inv := by
  obtain ⟨arr, r, hf, hr, rfl⟩ := readCall_next hc hnext
  exact h.recordAccess (mem_names_of_findArray hf) hr

theorem execCall_inv {e : Endian} {c : HostCall} {s t : State} (h : s.Inv) (hnext : execCall e c s = .next t) : t.Inv := by
  cases c with
  | construct name n => exact execConstruct_inv h hnext
  | get name index => exact execGet_inv h hnext
  | set name index value => exact execSet_inv h hnext
  | length name => exact readCall_inv h (.inl rfl) hnext
  | byteLength name => exact readCall_inv h (.inr (.inl rfl)) hnext
  | readBytes name offset count => exact readCall_inv h (.inr (.inr ⟨offset, count, rfl⟩)) hnext
  | writeBytes name offset bytes => exact execWriteBytes_inv h hnext
  | synchronise partner =>
    cases hnext
    exact h.synchronise partner

/-- Settles O12: an idle step and a transaction leave the harness as it is, and each harness call keeps the invariant. -/
theorem stepKeepsInv : Obligations.StepKeepsInv := by
  intro s t h hstep
  obtain ⟨-, rfl⟩ | ⟨p, rest, w, -, -, hexec⟩ | ⟨p, rest, c, -, -, hcall⟩ := step_cases hstep
  · exact h
  · rw [exec_eq] at hexec
    cases hexec
    exact h
  · have htaken : State.Inv { s with pending := rest, caller := p.agent } := h
    exact execCall_inv htaken hcall

/-! ## The two bytes of an element (R52) -/

/-- Two bytes written at neighbouring offsets read as written: the second write leaves the lower offset alone. -/
theorem Memory.readByte_writeByte_pair {m : Memory} (addr : Nat) (low high : Byte) (hm : m.wf) :
    ((m.writeByte addr low).writeByte (addr + 1) high).readByte addr = low ∧
    ((m.writeByte addr low).writeByte (addr + 1) high).readByte (addr + 1) = high := by
  have hne : addr ≠ addr + 1 := by omega
  constructor
  · rw [Memory.readByte_writeByte_other _ high hne, Memory.readByte_writeByte_same m addr low hm]
  · exact Memory.readByte_writeByte_same _ _ high (Memory.writeByte_wf m addr low hm)

/-- Settles O48: each byte order writes its pair of bytes, and the element laws give the read back, the form and the frame. -/
theorem byteOrderOfElement : Obligations.ByteOrderOfElement := by
  intro m addr h hm
  refine ⟨?_, ?_, fun e => ⟨?_, ?_, ?_⟩⟩
  · exact Memory.readByte_writeByte_pair addr (h.extractLsb' 0 8) (h.extractLsb' 8 8) hm
  · exact Memory.readByte_writeByte_pair addr (h.extractLsb' 8 8) (h.extractLsb' 0 8) hm
  · exact memRead_memWrite_same e m addr h hm
  · exact memWrite_wf e m addr h hm
  · exact fun b h0 h1 => readByte_memWrite_other e m h h0 h1

/-! ## The byte view (R51, R179) -/

@[simp] theorem Memory.length_readBytes (m : Memory) (offset count : Nat) : (m.readBytes offset count).length = count := by
  induction count generalizing offset with
  | zero => rfl
  | succ count ih => simp only [Memory.readBytes, List.length_cons, ih]

theorem Memory.getElem?_readBytes (m : Memory) {offset count j : Nat} (h : j < count) :
    (m.readBytes offset count)[j]? = some (m.readByte (offset + j)) := by
  induction count generalizing offset j with
  | zero => omega
  | succ count ih =>
    cases j with
    | zero => rfl
    | succ j =>
      simp only [Memory.readBytes, List.getElem?_cons_succ]
      rw [ih (by omega), Nat.add_right_comm, Nat.add_assoc]

/-- Settles O50: the equations of the two byte-view calls, inside the buffer and outside it (log 7). -/
theorem byteViewReadsBytes : Obligations.ByteViewReadsBytes := by
  intro e s name offset arr
  refine ⟨fun count haccess hinside => ?_, fun count haccess houtside => ?_, fun bytes haccess houtside => ?_⟩
  · exact ⟨_, arr.buffer.readBytes offset count, execReadBytes_ok haccess hinside, rfl,
      Memory.length_readBytes arr.buffer offset count, fun j hj => Memory.getElem?_readBytes arr.buffer hj, rfl, rfl, rfl, rfl⟩
  · exact execReadBytes_outside haccess houtside
  · exact execWriteBytes_outside haccess houtside

/-! ## Which accesses are refused (R60, R181) -/

/-- The array that a call opens and whether it writes to it (log 5); none for `construct` and `synchronise`, which open none. -/
def HostCall.opens? : HostCall → Option (ArrayName × (HalfArray → Bool))
  | .construct _ _ => none
  | .get name _ => some (name, fun _ => false)
  | .set name index _ => some (name, fun arr => validIndex arr index)
  | .length name => some (name, fun _ => false)
  | .byteLength name => some (name, fun _ => false)
  | .readBytes name _ _ => some (name, fun _ => false)
  | .writeBytes name _ bytes => some (name, fun _ => !bytes.isEmpty)
  | .synchronise _ => none

/-- A call is refused for whatever reason its array cannot be opened. -/
theorem execCall_of_openArray_error {e : Endian} {c : HostCall} {s : State} {name : ArrayName} {writes : HalfArray → Bool}
    {r : Refusal} (hc : c.opens? = some (name, writes)) (ho : s.openArray name writes = .error r) :
    execCall e c s = .refused r := by
  cases c with
  | construct => cases hc
  | synchronise => cases hc
  | get => cases hc; simp only [execCall, execGet, ho]
  | set => cases hc; simp only [execCall, execSet, ho]
  | length => cases hc; simp only [execCall, execLength, ho]
  | byteLength => cases hc; simp only [execCall, execByteLength, ho]
  | readBytes => cases hc; simp only [execCall, execReadBytes, ho]
  | writeBytes => cases hc; simp only [execCall, execWriteBytes, ho]

/-- A call that would race is refused: another agent's access that nothing ordered before the caller, one of the two writing. -/
theorem execCall_of_race {e : Endian} {c : HostCall} {s : State} {name : ArrayName} {writes : HalfArray → Bool}
    {arr : HalfArray} {x : Access} (hc : c.opens? = some (name, writes)) (hf : findArray s.arrays name = some arr)
    (hx : x ∈ s.accesses) (hname : x.array = name) (hagent : x.agent ≠ s.caller) (hordered : s.caller ∉ x.orderedBefore)
    (hwrites : x.writes = true ∨ writes arr = true) : execCall e c s = .refused .unsynchronisedAccess :=
  execCall_of_openArray_error hc
    (State.openArray_race hf ((s.races_eq_true name _).mpr ⟨x, hx, hname, hagent, hwrites, hordered⟩))

/-- Settles O53: with a write on record every call that opens the array races; with any access on record, a call that writes does. -/
theorem unsynchronisedAccessIsRefused : Obligations.UnsynchronisedAccessIsRefused := by
  intro e s name arr x hf hx hname hagent hordered
  have hrefused : ∀ {c writes}, HostCall.opens? c = some (name, writes) → x.writes = true ∨ writes arr = true →
      execCall e c s = .refused .unsynchronisedAccess :=
    fun hc hwrites => execCall_of_race hc hf hx hname hagent hordered hwrites
  refine ⟨fun hw => ?_, fun index value i hindex hi => ?_, fun offset bytes hbytes => ?_⟩
  · have hany : ∀ {c writes}, HostCall.opens? c = some (name, writes) → execCall e c s = .refused .unsynchronisedAccess :=
      fun hc => hrefused hc (.inl hw)
    exact ⟨fun _ => hany rfl, fun _ _ => hany rfl, hany rfl, hany rfl, fun _ _ => hany rfl, fun _ _ => hany rfl⟩
  · exact hrefused rfl (.inr (validIndex_of_ok (checkIndex_ok hindex hi)))
  · exact hrefused rfl (.inr (by simpa using hbytes))

/-! ## Which accesses are admitted (R60, log 5) -/

theorem checkIndex_of_validIndex {arr : HalfArray} {index : HostNumber} (h : validIndex arr index = true) :
    ∃ i, checkIndex arr index = .ok i := by
  cases hc : checkIndex arr index with
  | error err => simp [validIndex_of_error hc] at h
  | ok i => exact ⟨i, rfl⟩

/-- What a successful `set` leaves for the calls after it: the array under its name, and the write on record. -/
theorem execSet_answers {e : Endian} {s : State} {name : ArrayName} {arr : HalfArray} {index : HostNumber} (value : Double)
    (haccess : s.CanAccess name true arr) (hindex : validIndex arr index = true) :
    ∃ (t : State) (arr' : HalfArray), execSet e name index value s = .next t ∧ findArray t.arrays name = some arr' ∧
      t.accesses = s.accesses ++ [⟨s.caller, name, true, []⟩] ∧ t.caller = s.caller := by
  obtain ⟨i, hi⟩ := checkIndex_of_validIndex hindex
  exact ⟨_, arr.setSlot e i (fp64ToFp16 value), execSet_ok haccess hi, findArray_putArray_same s.arrays name _, rfl, rfl⟩

/-- A `get` on an array that the caller may access answers, with the element or with the index check's error. -/
theorem execGet_answers (e : Endian) {s : State} {name : ArrayName} {arr : HalfArray} (index : HostNumber)
    (h : s.CanAccess name false arr) : ∃ t, execGet e name index s = .next t := by
  cases hc : checkIndex arr index with
  | error err => exact ⟨_, execGet_error h hc⟩
  | ok i => exact ⟨_, execGet_ok h hc⟩

/-- Settles O54: the write on record is what the `get` races with, and the synchronisation makes it known to the other agent. -/
theorem synchronisedAgentsMayShare : Obligations.SynchronisedAgentsMayShare := by
  intro e s name arr i j value g g' hne hf hi _ hwrite hread
  have haccess : State.CanAccess { s with caller := g } name true arr := ⟨hf, hwrite⟩
  obtain ⟨t, arr', hset, hf', haccesses, hcaller⟩ := execSet_answers (e := e) value haccess hi
  have hrecorded : ⟨g, name, true, []⟩ ∈ t.accesses := by simp [haccesses]
  have hrefused : execCall e (.get name j) { t with caller := g' } = .refused .unsynchronisedAccess :=
    execCall_of_race rfl hf' hrecorded rfl hne List.not_mem_nil (.inl rfl)
  have hknown : ∀ x ∈ t.accesses, x.array = name → (x.writes = true ∨ false = true) →
      x.knownTo g' = true ∨ x.knownTo t.caller = true := by
    rw [haccesses, List.forall_mem_append, List.forall_mem_singleton]
    refine ⟨fun x hx harray hwrites => .inl ?_, fun _ _ => .inr ?_⟩
    · exact (State.races_eq_false _ name false).mp hread x hx harray hwrites
    · rw [hcaller, Access.knownTo_eq_true]
      exact .inl rfl
  obtain ⟨v, hget⟩ := execGet_answers (s := { t.synchronise g' with caller := g' }) e j ⟨hf', State.races_synchronise hknown⟩
  exact ⟨t, t.synchronise g', v, hset, hrefused, rfl, rfl, hget⟩

end Sys2Proof.Machine
end

section
/-!
PROOFS. The transaction word (R80 to R83): the decoder and the encoder, what a word gives, and the operands that complete (R79, R82);
then a line of a test program as the request it stands for (R85, R86).
-/

namespace Sys2Proof.Machine

/-! ## The two fields of a word -/

@[simp] theorem transactionOp_transactionWord (op : BitVec 1) (a : Double) : transactionOp (transactionWord op a) = op :=
  BitVec.extractLsb'_append_eq_right

@[simp] theorem transactionOperand_transactionWord (op : BitVec 1) (a : Double) :
    transactionOperand (transactionWord op a) = a :=
  BitVec.extractLsb'_append_eq_left

/-- `op` is the parity of the word's number (log 1). -/
theorem transactionOp_ofNat (w : Nat) : transactionOp (BitVec.ofNat 65 w) = BitVec.ofNat 1 w := by
  apply BitVec.eq_of_toNat_eq
  simp only [transactionOp, BitVec.extractLsb'_toNat, BitVec.toNat_ofNat, Nat.shiftRight_eq_div_pow]
  omega

/-- `a` is half of the word's number (log 1). -/
theorem transactionOperand_ofNat (w : Nat) : transactionOperand (BitVec.ofNat 65 w) = BitVec.ofNat 64 (w / 2) := by
  apply BitVec.eq_of_toNat_eq
  simp only [transactionOperand, BitVec.extractLsb'_toNat, BitVec.toNat_ofNat, Nat.shiftRight_eq_div_pow]
  omega

/-! ## Decoding -/

@[simp] theorem decodeWord_transactionWord_one (a : Double) : decodeWord (transactionWord 1#1 a) = .encode a := by
  simp [decodeWord]

@[simp] theorem decodeWord_transactionWord_zero (a : Double) : decodeWord (transactionWord 0#1 a) = .decode a := by
  simp [decodeWord]

theorem decodeWord_encodeInstr (i : Instr) : decodeWord (encodeInstr i) = i := by
  cases i with
  | encode a => exact decodeWord_transactionWord_one a
  | decode a => exact decodeWord_transactionWord_zero a

theorem decodeNumber_of_lt {w : Nat} (h : w < 2 ^ 65) : decodeNumber w = .ok (decodeWord (BitVec.ofNat 65 w)) := if_pos h

theorem decodeNumber_toNat (w : TransactionWord) : decodeNumber w.toNat = .ok (decodeWord w) := by
  rw [decodeNumber_of_lt w.isLt, BitVec.ofNat_toNat, BitVec.setWidth_eq]

theorem decodeWord_ofNat_odd {w : Nat} (h : w % 2 = 1) :
    decodeWord (BitVec.ofNat 65 w) = .encode (BitVec.ofNat 64 (w / 2)) := by
  have hop : BitVec.ofNat 1 w = 1#1 := BitVec.eq_of_toNat_eq h
  simp only [decodeWord, transactionOp_ofNat, transactionOperand_ofNat, hop, if_true]

theorem decodeWord_ofNat_even {w : Nat} (h : w % 2 = 0) :
    decodeWord (BitVec.ofNat 65 w) = .decode (BitVec.ofNat 64 (w / 2)) := by
  have hop : BitVec.ofNat 1 w = 0#1 := BitVec.eq_of_toNat_eq h
  simp [decodeWord, transactionOp_ofNat, transactionOperand_ofNat, hop]

/-- Settles O1: the word keeps both fields, and a number below 2^65 is its own word. -/
theorem wordAndInstrAgree : Obligations.WordAndInstrAgree := by
  refine ⟨fun i => ⟨decodeWord_encodeInstr i, ?_⟩, encodeInstr_decodeWord⟩
  rw [decodeNumber_toNat, decodeWord_encodeInstr]

/-- Settles O2: below 2^65 a number is a word, whose parity is `op` and whose half is `a`. -/
theorem everyWordIsATransaction : Obligations.EveryWordIsATransaction := by
  refine fun w => ⟨fun hw hodd => ?_, fun hw heven => ?_, fun hw => if_neg (Nat.not_lt.mpr hw)⟩
  · rw [decodeNumber_of_lt hw, decodeWord_ofNat_odd hodd]
  · rw [decodeNumber_of_lt hw, decodeWord_ofNat_even heven]

/-- Settles O3: each word is a numeral, on which the decoder computes. -/
theorem writtenWordsDecode : Obligations.WrittenWordsDecode :=
  ⟨rfl, rfl, rfl, rfl⟩

/-! ## What a transaction gives -/

theorem transaction_zero (a : Double) : transaction 0#1 a = fp16ToFp64 (a.extractLsb' 0 16) := rfl
theorem transaction_one (a : Double) : transaction 1#1 a = (fp64ToFp16 a).setWidth 64 := rfl

/-- Settles O4: the result is the wrapper's on the word's two fields, which for op = 1 is a zero-extended half. -/
theorem transactionGivesUnitResult : Obligations.TransactionGivesUnitResult := by
  refine fun w s => ⟨transaction (transactionOp w) (transactionOperand w), ?_, fun hop => ?_, fun hop => ?_⟩
  · rw [exec_eq, encodeInstr_decodeWord, resultOf_decodeWord]
  · rw [hop, transaction_zero]
  · rw [hop, transaction_one, BitVec.setWidth_eq_append (by decide : 16 ≤ 64)]
    exact ⟨BitVec.extractLsb'_append_eq_right, BitVec.extractLsb'_append_eq_left⟩

/-- Settles O5: the result of `decode` reads only the low 16 bits of its operand. -/
theorem decodeIgnoresUpperBits : Obligations.DecodeIgnoresUpperBits := by
  intro a b hlow s
  have hresult : resultOf (.decode b) = resultOf (.decode a) := by
    simp only [resultOf, transaction_zero, hlow]
  exact ⟨resultOf (.decode a), exec_eq (.decode a) s, hresult ▸ exec_eq (.decode b) s⟩

theorem encodes_fp64ToFp16 (a : Double) : Encodes a (fp64ToFp16 a) := exec_eq (.encode a)

theorem decodes_fp16ToFp64 (h : Half) : Decodes h (fp16ToFp64 h) := by
  rintro a s rfl
  exact exec_eq (.decode a) s

/-- Settles O6: each unit's function answers every operand. -/
theorem everyOperandCompletes : Obligations.EveryOperandCompletes :=
  ⟨fun a => ⟨_, encodes_fp64ToFp16 a⟩, fun h => ⟨_, decodes_fp16ToFp64 h⟩⟩

/-! ## Lines of a test program -/

theorem Line.assemble_encode_none {x : Literal64} (hx : x.bits? = none) :
    (Line.encode x).assemble = .error .literalOutsideSyntax := by simp only [Line.assemble, hx]
theorem Line.assemble_decode_none {digits : List HexDigit} (hd : literal16Bits? digits = none) :
    (Line.decode digits).assemble = .error .literalOutsideSyntax := by simp only [Line.assemble, hd]
theorem Line.assemble_set_none {x : Literal64} (array : ArrayName) (n : HostNumber) (hx : x.bits? = none) :
    (Line.set array n x).assemble = .error .literalOutsideSyntax := by simp only [Line.assemble, hx]

section
variable {s : State} {g : Agent} {l : Line} {rest : List Presented}

theorem step_of_pending_line_transaction {w : TransactionWord} (h : s.pending = { agent := g, request := .line l } :: rest)
    (hl : l.assemble = .ok (.transaction w)) : step s = exec (decodeWord w) { s with pending := rest, caller := g } := by
  simp only [step, State.fetch, h, Request.action, hl]

theorem step_of_pending_line_call {c : HostCall} (h : s.pending = { agent := g, request := .line l } :: rest)
    (hl : l.assemble = .ok (.call c)) :
    step s = execCall Config.hostEndian c { s with pending := rest, caller := g } := by
  simp only [step, State.fetch, h, Request.action, hl]

theorem step_of_pending_line_error {r : Refusal} (h : s.pending = { agent := g, request := .line l } :: rest)
    (hl : l.assemble = .error r) : step s = .refused r := by
  simp only [step, State.fetch, h, Request.action, hl]

end

/-- Settles O57: each clause is what its form of line assembles to, and the step on a line that assembles so. -/
theorem lineRunsAsItsRequest : Obligations.LineRunsAsItsRequest := by
  intro s g l rest h
  refine ⟨?encode, ?decode, ?new, ?set, ?get, ?len, ?bytes, ?refused64, ?refused16⟩
  case encode =>
    rintro x a rfl hx
    rw [step_of_pending_line_transaction h (Line.assemble_encode hx), decodeWord_transactionWord_one]
  case decode =>
    rintro digits half rfl hd
    rw [step_of_pending_line_transaction h (Line.assemble_decode hd), decodeWord_transactionWord_zero]
  case new =>
    rintro name n rfl
    exact step_of_pending_line_call h (Line.assemble_new name n)
  case set =>
    rintro name index x a rfl hx
    exact step_of_pending_line_call h (Line.assemble_set name index hx)
  case get =>
    rintro name index rfl
    exact step_of_pending_line_call h (Line.assemble_get name index)
  case len =>
    rintro name rfl
    exact step_of_pending_line_call h (Line.assemble_len name)
  case bytes =>
    rintro name rfl
    exact step_of_pending_line_call h (Line.assemble_bytes name)
  case refused64 =>
    rintro x (rfl | ⟨name, index, rfl⟩) hx
    · exact step_of_pending_line_error h (Line.assemble_encode_none hx)
    · exact step_of_pending_line_error h (Line.assemble_set_none name index hx)
  case refused16 =>
    rintro digits rfl hd
    exact step_of_pending_line_error h (Line.assemble_decode_none hd)

end Sys2Proof.Machine
end

section
/-!
PROOFS. The literals of test programs (R85): a finite binary64 pattern as an integer multiple of 2^-1074, the pattern of an exact binary
fraction, and each literal form on top of them.
-/

namespace Sys2Proof.Machine

/-! ## The finite values of binary64, in integers (R74) -/

/-- The significand of a finite pattern, with the leading one of a normal number. -/
def significand64 (a : Double) : Nat := if exp11 a = 0 then frac52 a else 2 ^ 52 + frac52 a

/-- The exponent of a finite pattern over the least one, -1074: subnormals and the first normal binade share it. -/
def scale64 (a : Double) : Nat := exp11 a - 1

theorem significand64_lt (a : Double) : significand64 a < 2 ^ 53 := by
  have := frac52_lt a
  unfold significand64
  split_ifs <;> omega

/-- Above the least exponent every significand has its leading one. -/
theorem le_significand64 {a : Double} (h : scale64 a ≠ 0) : 2 ^ 52 ≤ significand64 a := by
  unfold scale64 at h
  rw [significand64, if_neg (by omega)]
  exact Nat.le_add_right ..

theorem scale64_le {a : Double} (h : exp11 a ≠ 2047) : scale64 a ≤ 2045 := by
  have := exp11_lt a
  unfold scale64
  omega

/-- A binary64 pattern is its three fields (R74). -/
theorem pack64_fields (a : Double) : pack64 (sign64 a) (exp11 a) (frac52 a) = a := by
  apply BitVec.eq_of_toNat_eq
  have ha := a.isLt
  simp only [pack64, toNat_append3, sign64, exp11, frac52, BitVec.toNat_ofNat, BitVec.extractLsb'_toNat,
    Nat.shiftRight_eq_div_pow]
  omega

/-- A pattern is its sign, significand and scale: a significand below 2^52 says that the exponent field is 0. -/
theorem eq_of_significand64_scale64 {a b : Double} (hs : sign64 a = sign64 b) (hm : significand64 a = significand64 b)
    (he : scale64 a = scale64 b) : a = b := by
  have ha := frac52_lt a
  have hb := frac52_lt b
  unfold significand64 at hm
  unfold scale64 at he
  have hexp : exp11 a = exp11 b := by split_ifs at hm <;> omega
  have hfrac : frac52 a = frac52 b := by split_ifs at hm <;> omega
  rw [← pack64_fields a, ← pack64_fields b, hs, hexp, hfrac]

theorem val64_of_finite {a : Double} (h : exp11 a ≠ 2047) :
    val64 a = .fin (sign64 a) ((significand64 a : ℚ) * 2 ^ ((scale64 a : ℤ) - 1074)) := by
  unfold val64 significand64 scale64
  by_cases h0 : exp11 a = 0
  · simp [h0]
  · have he : ((exp11 a - 1 : Nat) : ℤ) - 1074 = (exp11 a : ℤ) - 1075 := by omega
    simp only [h0, h, if_false, he]
    push_cast
    rfl

/-- A power of two, counted in units of 2^-1074. -/
theorem two_zpow_sub_1074 (j : ℤ) : (2 : ℚ) ^ (j - 1074) = 2 ^ j / 2 ^ 1074 := by
  rw [zpow_sub₀ two_ne_zero]
  rfl

theorem cast_mul_two_pow (n i : Nat) : ((n * 2 ^ i : Nat) : ℚ) = n * 2 ^ i := by
  rw [Nat.cast_mul, Nat.cast_pow, Nat.cast_ofNat]

/-- A finite value of R74, with its magnitude counted in units of 2^-1074. -/
theorem val64_eq_fin_iff (a : Double) (s : BitVec 1) (q : ℚ) :
    val64 a = .fin s q ↔
      exp11 a ≠ 2047 ∧ sign64 a = s ∧ ((significand64 a * 2 ^ scale64 a : Nat) : ℚ) = q * 2 ^ 1074 := by
  by_cases h : exp11 a = 2047
  · have hval : ∀ q, val64 a ≠ .fin s q := by
      intro q
      unfold val64
      rw [if_neg (by omega), if_pos h]
      split_ifs <;> simp
    simp [h, hval]
  · have hunit : (significand64 a : ℚ) * 2 ^ ((scale64 a : ℤ) - 1074) = significand64 a * 2 ^ scale64 a / 2 ^ 1074 := by
      rw [two_zpow_sub_1074, zpow_natCast, mul_div_assoc]
    rw [val64_of_finite h, Value.fin.injEq, hunit, div_eq_iff (pow_ne_zero _ two_ne_zero),
      and_iff_right h, cast_mul_two_pow]

/-- The same for the magnitude `n / 2^k`, over the natural numbers. -/
theorem val64_eq_fin_div_iff (a : Double) (s : BitVec 1) (n k : Nat) :
    val64 a = .fin s ((n : ℚ) / 2 ^ k) ↔
      exp11 a ≠ 2047 ∧ sign64 a = s ∧ significand64 a * 2 ^ (scale64 a + k) = n * 2 ^ 1074 := by
  have hclear : ((significand64 a * 2 ^ scale64 a : Nat) : ℚ) = (n : ℚ) / 2 ^ k * 2 ^ 1074 ↔
      significand64 a * 2 ^ (scale64 a + k) = n * 2 ^ 1074 := by
    rw [div_mul_eq_mul_div, eq_div_iff (by positivity), ← cast_mul_two_pow, ← cast_mul_two_pow, Nat.cast_inj, mul_assoc,
      ← pow_add]
  rw [val64_eq_fin_iff, hclear]

theorem val64_pack64_eq_fin_div {e f n k : Nat} (s : BitVec 1) (he : e < 2047) (hf : f < 2 ^ 52)
    (h : (if e = 0 then f else 2 ^ 52 + f) * 2 ^ (e - 1 + k) = n * 2 ^ 1074) :
    val64 (pack64 s e f) = .fin s ((n : ℚ) / 2 ^ k) := by
  rw [val64_eq_fin_div_iff, significand64, scale64, exp11_pack64 s e f (by omega), frac52_pack64 s e f hf]
  exact ⟨by omega, sign64_pack64 s e f, h⟩

/-- One number has one significand and scale: a larger scale would need a smaller significand than it has. -/
theorem scale64_le_of_eq {a b : Double} (h : significand64 a * 2 ^ scale64 a = significand64 b * 2 ^ scale64 b) :
    scale64 a ≤ scale64 b := by
  by_contra hlt
  obtain ⟨d, hd⟩ := Nat.exists_eq_add_of_lt (not_le.mp hlt)
  have ha := le_significand64 (a := a) (by omega)
  have hb := significand64_lt b
  rw [hd, add_assoc, Nat.pow_add', ← mul_assoc] at h
  have hsig := Nat.eq_of_mul_eq_mul_right (Nat.two_pow_pos _) h
  have htwo : 2 ^ 1 ≤ 2 ^ (d + 1) := Nat.pow_le_pow_right two_pos (Nat.le_add_left 1 d)
  have := Nat.mul_le_mul ha htwo
  omega

/-- No two binary64 patterns have one finite value, the sign of a zero counted (R74). -/
theorem eq_of_val64_eq_fin {a b : Double} {s : BitVec 1} {q : ℚ} (ha : val64 a = .fin s q) (hb : val64 b = .fin s q) :
    a = b := by
  obtain ⟨-, hsa, hqa⟩ := (val64_eq_fin_iff a s q).mp ha
  obtain ⟨-, hsb, hqb⟩ := (val64_eq_fin_iff b s q).mp hb
  have hnat : significand64 a * 2 ^ scale64 a = significand64 b * 2 ^ scale64 b := by
    exact_mod_cast hqa.trans hqb.symm
  have hscale := le_antisymm (scale64_le_of_eq hnat) (scale64_le_of_eq hnat.symm)
  rw [hscale] at hnat
  exact eq_of_significand64_scale64 (hsa.trans hsb.symm) (Nat.eq_of_mul_eq_mul_right (Nat.two_pow_pos _) hnat) hscale

/-! ## The pattern of an exact binary fraction -/

theorem zero_pattern_eq_pack64 (s : BitVec 1) : s ++ 0#63 = pack64 s 0 0 := by
  obtain rfl | rfl := BitVec.eq_zero_or_eq_one s
  · rfl
  · rfl

/-- Scaling in two steps, for the significands that `exactDouble` shifts up. -/
theorem mul_two_pow_mul_two_pow (n : Nat) {i j l : Nat} (h : i + j = l) : n * 2 ^ i * 2 ^ j = n * 2 ^ l := by
  rw [mul_assoc, ← pow_add, h]

/-- The same for a significand that is shifted down with nothing lost. -/
theorem div_two_pow_mul_two_pow {n i j l : Nat} (hn : n % 2 ^ i = 0) (h : i + l = j) : n / 2 ^ i * 2 ^ j = n * 2 ^ l := by
  rw [← h, pow_add, ← mul_assoc, Nat.div_mul_cancel (Nat.dvd_of_mod_eq_zero hn)]

/-- A significand of 53 bits under a normal exponent (R74). -/
theorem val64_pack64_normal {e m n k : Nat} (s : BitVec 1) (he : 1 ≤ e ∧ e ≤ 2046) (hm : 2 ^ 52 ≤ m ∧ m < 2 ^ 53)
    (h : m * 2 ^ (e - 1 + k) = n * 2 ^ 1074) : val64 (pack64 s e (m - 2 ^ 52)) = .fin s ((n : ℚ) / 2 ^ k) := by
  refine val64_pack64_eq_fin_div s (by omega) (by omega) ?_
  rw [if_neg (by omega), Nat.add_sub_cancel' hm.1, h]

theorem val64_pack64_subnormal {m n k : Nat} (s : BitVec 1) (hm : m < 2 ^ 52) (h : m * 2 ^ k = n * 2 ^ 1074) :
    val64 (pack64 s 0 m) = .fin s ((n : ℚ) / 2 ^ k) := by
  refine val64_pack64_eq_fin_div s (by decide) hm ?_
  rw [if_pos rfl, Nat.zero_sub, Nat.zero_add, h]

/-! The patterns that `exactDouble` answers for a numerator with leading bit `p`, one lemma per answer. -/

section
variable {n p k : Nat} (s : BitVec 1)

theorem val64_exactDouble_normal_shifted_up (hlow : 2 ^ p ≤ n) (hhigh : n < 2 ^ (p + 1)) (hmax : ¬(p : Int) - k > 1023)
    (hmin : (p : Int) - k ≥ -1022) (hp : p ≤ 52) :
    val64 (pack64 s ((p : Int) - k + 1023).toNat ((n - 2 ^ p) <<< (52 - p))) = .fin s ((n : ℚ) / 2 ^ k) := by
  have hfrac : (n - 2 ^ p) <<< (52 - p) = n * 2 ^ (52 - p) - 2 ^ 52 := by
    rw [Nat.shiftLeft_eq, Nat.sub_mul, ← pow_add, Nat.add_sub_cancel' hp]
  rw [hfrac]
  refine val64_pack64_normal s (by omega) ⟨?_, ?_⟩ (mul_two_pow_mul_two_pow n (by omega))
  · calc 2 ^ 52 = 2 ^ p * 2 ^ (52 - p) := by rw [← pow_add, Nat.add_sub_cancel' hp]
      _ ≤ n * 2 ^ (52 - p) := Nat.mul_le_mul_right _ hlow
  · calc n * 2 ^ (52 - p) < 2 ^ (p + 1) * 2 ^ (52 - p) := Nat.mul_lt_mul_of_pos_right hhigh (Nat.two_pow_pos _)
      _ = 2 ^ 53 := by rw [← pow_add]; congr 1; omega

theorem val64_exactDouble_normal_shifted_down (hlow : 2 ^ p ≤ n) (hhigh : n < 2 ^ (p + 1)) (hmax : ¬(p : Int) - k > 1023)
    (hmin : (p : Int) - k ≥ -1022) (hp : ¬p ≤ 52) (hn : n % 2 ^ (p - 52) = 0) :
    val64 (pack64 s ((p : Int) - k + 1023).toNat (n >>> (p - 52) - 2 ^ 52)) = .fin s ((n : ℚ) / 2 ^ k) := by
  rw [Nat.shiftRight_eq_div_pow]
  refine val64_pack64_normal s (by omega) ⟨?_, ?_⟩ (div_two_pow_mul_two_pow hn (by omega))
  · rwa [Nat.le_div_iff_mul_le (Nat.two_pow_pos _), ← pow_add, Nat.add_sub_cancel' (by omega)]
  · rwa [Nat.div_lt_iff_lt_mul (Nat.two_pow_pos _), ← pow_add, show 53 + (p - 52) = p + 1 by omega]

theorem val64_exactDouble_subnormal_shifted_up (hhigh : n < 2 ^ (p + 1)) (hmin : ¬(p : Int) - k ≥ -1022) (hk : k ≤ 1074) :
    val64 (pack64 s 0 (n <<< (1074 - k))) = .fin s ((n : ℚ) / 2 ^ k) := by
  rw [Nat.shiftLeft_eq]
  refine val64_pack64_subnormal s ?_ (mul_two_pow_mul_two_pow n (by omega))
  calc n * 2 ^ (1074 - k) < 2 ^ (p + 1) * 2 ^ (1074 - k) := Nat.mul_lt_mul_of_pos_right hhigh (Nat.two_pow_pos _)
    _ ≤ 2 ^ 52 := by rw [← pow_add]; exact Nat.pow_le_pow_right two_pos (by omega)

theorem val64_exactDouble_subnormal_shifted_down (hhigh : n < 2 ^ (p + 1)) (hmin : ¬(p : Int) - k ≥ -1022) (hk : ¬k ≤ 1074)
    (hn : n % 2 ^ (k - 1074) = 0) : val64 (pack64 s 0 (n >>> (k - 1074))) = .fin s ((n : ℚ) / 2 ^ k) := by
  rw [Nat.shiftRight_eq_div_pow]
  refine val64_pack64_subnormal s ?_ (div_two_pow_mul_two_pow hn (by omega))
  rw [Nat.div_lt_iff_lt_mul (Nat.two_pow_pos _), ← pow_add]
  exact hhigh.trans_le (Nat.pow_le_pow_right two_pos (by omega))

end

/-! Where `exactDouble` answers none: what a pattern of the value `n / 2^k` would need. -/

section
variable {a : Double} {s : BitVec 1} {n p k : Nat} (h : val64 a = .fin s ((n : ℚ) / 2 ^ k))
include h

/-- 53 bits of significand reach the leading bit of `n`. -/
theorem lt_scale64_of_two_pow_le (hlow : 2 ^ p ≤ n) : p + 1074 < 53 + (scale64 a + k) := by
  obtain ⟨-, -, heq⟩ := (val64_eq_fin_div_iff a s n k).mp h
  rw [← Nat.pow_lt_pow_iff_right (a := 2) (by decide)]
  calc 2 ^ (p + 1074) = 2 ^ p * 2 ^ 1074 := pow_add ..
    _ ≤ n * 2 ^ 1074 := Nat.mul_le_mul_right _ hlow
    _ = significand64 a * 2 ^ (scale64 a + k) := heq.symm
    _ < 2 ^ 53 * 2 ^ (scale64 a + k) := Nat.mul_lt_mul_of_pos_right (significand64_lt a) (Nat.two_pow_pos _)
    _ = 2 ^ (53 + (scale64 a + k)) := (pow_add ..).symm

/-- The bits of `n` below the scale are 0. -/
theorem mod_two_pow_of_le_scale64 {j : Nat} (hj : j + 1074 ≤ scale64 a + k) : n % 2 ^ j = 0 := by
  obtain ⟨-, -, heq⟩ := (val64_eq_fin_div_iff a s n k).mp h
  apply Nat.mod_eq_zero_of_dvd
  apply Nat.dvd_of_mul_dvd_mul_right (Nat.two_pow_pos 1074)
  calc 2 ^ j * 2 ^ 1074 = 2 ^ (j + 1074) := (pow_add ..).symm
    _ ∣ significand64 a * 2 ^ (scale64 a + k) := (pow_dvd_pow 2 hj).mul_left _
    _ = n * 2 ^ 1074 := heq

theorem sub_le_of_val64_eq_fin (hlow : 2 ^ p ≤ n) : (p : Int) - k ≤ 1023 := by
  have hp := lt_scale64_of_two_pow_le h hlow
  obtain ⟨hfinite, -, -⟩ := (val64_eq_fin_div_iff a s n k).mp h
  have := scale64_le hfinite
  omega

end

/-- R74, R85: `exactDouble` answers the one pattern of the value, and none only where there is none. -/
theorem exactDouble_eq_some_iff (s : BitVec 1) (n k : Nat) (a : Double) :
    exactDouble s n k = some a ↔ val64 a = .fin s ((n : ℚ) / 2 ^ k) := by
  have answer : ∀ {b : Double}, val64 b = .fin s ((n : ℚ) / 2 ^ k) →
      (some b = some a ↔ val64 a = .fin s ((n : ℚ) / 2 ^ k)) := fun hb =>
    ⟨fun h => Option.some.inj h ▸ hb, fun ha => congrArg some (eq_of_val64_eq_fin hb ha)⟩
  unfold exactDouble
  by_cases hn : n = 0
  · rw [if_pos hn, zero_pattern_eq_pack64]
    exact answer (val64_pack64_subnormal s (by decide) (by rw [hn, Nat.zero_mul, Nat.zero_mul]))
  obtain ⟨hlow, hhigh⟩ := msb_spec hn
  simp only [if_neg hn]
  generalize msb n = p at hlow hhigh
  split_ifs with hmax hmin hp hdown hk hdown
  · exact iff_of_false nofun fun h => absurd (sub_le_of_val64_eq_fin h hlow) (not_le.mpr hmax)
  · exact answer (val64_exactDouble_normal_shifted_up s hlow hhigh hmax hmin hp)
  · exact answer (val64_exactDouble_normal_shifted_down s hlow hhigh hmax hmin hp hdown)
  · refine iff_of_false nofun fun h => hdown (mod_two_pow_of_le_scale64 h ?_)
    have := lt_scale64_of_two_pow_le h hlow
    omega
  · exact answer (val64_exactDouble_subnormal_shifted_up s hhigh hmin hk)
  · exact answer (val64_exactDouble_subnormal_shifted_down s hhigh hmin hk hdown)
  · exact iff_of_false nofun fun h => hdown (mod_two_pow_of_le_scale64 h (by omega))

/-! ## Decimal literals and powers of two -/

theorem decimalBits_of_nonneg (negative : Bool) (m x : Nat) :
    decimalBits negative m x = exactDouble (signBit negative) (m * 10 ^ x) 0 := by
  rw [decimalBits, if_pos (Int.natCast_nonneg x), Int.toNat_natCast]

theorem decimalBits_of_neg {negative : Bool} {m d : Nat} (hd : d ≠ 0) :
    decimalBits negative m (-d) =
      if m % 5 ^ d = 0 then exactDouble (signBit negative) (m / 5 ^ d) d else none := by
  rw [decimalBits, if_neg (by omega), neg_neg, Int.toNat_natCast]

/-- No power of two takes the factor 5 of a power of ten away. -/
theorem five_pow_dvd_of_mul_ten_pow {M m d j : Nat} (h : (M : ℚ) * 10 ^ d = m * 2 ^ j) : 5 ^ d ∣ m := by
  have hnat : M * 10 ^ d = m * 2 ^ j := by exact_mod_cast h
  have hcoprime : Nat.Coprime (5 ^ d) (2 ^ j) := Nat.Coprime.pow d j (by decide)
  apply hcoprime.dvd_of_dvd_mul_right
  rw [← hnat]
  exact (pow_dvd_pow_of_dvd (by decide : 5 ∣ 10) d).mul_left M

/-- A fraction of a power of ten that is a finite binary64 value has no factor 5 left in its denominator. -/
theorem five_pow_dvd_of_val64_eq_fin {a : Double} {s : BitVec 1} {m d : Nat} (h : val64 a = .fin s ((m : ℚ) / 10 ^ d)) :
    5 ^ d ∣ m := by
  obtain ⟨-, -, heq⟩ := (val64_eq_fin_iff a s _).mp h
  rw [div_mul_eq_mul_div, eq_div_iff (by positivity)] at heq
  exact five_pow_dvd_of_mul_ten_pow heq

/-- R85: a decimal literal has exactly the patterns of its value and sign. -/
theorem decimalBits_eq_some_iff (negative : Bool) (m : Nat) (x : ℤ) (a : Double) :
    decimalBits negative m x = some a ↔ val64 a = .fin (signBit negative) ((m : ℚ) * 10 ^ x) := by
  by_cases hx : 0 ≤ x
  · lift x to ℕ using hx
    rw [decimalBits_of_nonneg, exactDouble_eq_some_iff, pow_zero, div_one, zpow_natCast, Nat.cast_mul, Nat.cast_pow,
      Nat.cast_ofNat]
  · obtain ⟨d, rfl⟩ : ∃ d : Nat, x = -d := ⟨x.natAbs, by omega⟩
    rw [decimalBits_of_neg (by omega), zpow_neg, zpow_natCast, ← div_eq_mul_inv]
    split_ifs with hm
    · have hvalue : (m : ℚ) / 10 ^ d = ((m / 5 ^ d : Nat) : ℚ) / 2 ^ d := by
        rw [Nat.cast_div (Nat.dvd_of_mod_eq_zero hm) (by positivity), div_div, Nat.cast_pow, Nat.cast_ofNat, ← mul_pow]
        norm_num
      rw [exactDouble_eq_some_iff, hvalue]
    · exact iff_of_false nofun fun h => hm (Nat.mod_eq_zero_of_dvd (five_pow_dvd_of_val64_eq_fin h))

/-- The finite binary64 values that are powers of two (R74). -/
theorem pow2_range_of_val64_eq_fin {a : Double} {s : BitVec 1} {k : ℤ} (h : val64 a = .fin s (2 ^ k)) :
    -1074 ≤ k ∧ k ≤ 1023 := by
  obtain ⟨j, rfl⟩ : ∃ j : ℤ, k = j - 1074 := ⟨k + 1074, by omega⟩
  obtain ⟨hfinite, -, heq⟩ := (val64_eq_fin_iff a s _).mp h
  rw [two_zpow_sub_1074, div_mul_cancel₀ _ (pow_ne_zero _ two_ne_zero)] at heq
  have hlow : (2 : ℚ) ^ (0 : ℤ) ≤ 2 ^ j := by
    have hpos : (0 : ℚ) < ((significand64 a * 2 ^ scale64 a : Nat) : ℚ) := heq ▸ zpow_pos two_pos j
    rw [← heq, zpow_zero]
    exact_mod_cast hpos
  have hhigh : (2 : ℚ) ^ j < 2 ^ ((53 + scale64 a : ℕ) : ℤ) := by
    have hlt := Nat.mul_lt_mul_of_pos_right (significand64_lt a) (Nat.two_pow_pos (scale64 a))
    rw [← heq, zpow_natCast, pow_add]
    exact_mod_cast hlt
  have := (zpow_le_zpow_iff_right₀ one_lt_two).mp hlow
  have := (zpow_lt_zpow_iff_right₀ one_lt_two).mp hhigh
  have := scale64_le hfinite
  omega

/-- Every power of two in the range is the value of a pattern: `2^52` under a normal exponent, or a power of two in the fraction (R74). -/
theorem exists_val64_eq_two_zpow {k : ℤ} (hk : -1074 ≤ k ∧ k ≤ 1023) : ∃ a : Double, val64 a = .fin 0#1 (2 ^ k) := by
  obtain ⟨j, rfl⟩ : ∃ j : Nat, k = j - 1074 := ⟨(k + 1074).toNat, by omega⟩
  have hvalue : (2 : ℚ) ^ ((j : ℤ) - 1074) = ((2 ^ j : Nat) : ℚ) / 2 ^ 1074 := by
    rw [two_zpow_sub_1074, zpow_natCast, Nat.cast_pow, Nat.cast_ofNat]
  rw [hvalue]
  by_cases hj : j < 52
  · exact ⟨_, val64_pack64_subnormal 0#1 (Nat.pow_lt_pow_right one_lt_two hj) rfl⟩
  · refine ⟨_, val64_pack64_normal (e := j - 51) (m := 2 ^ 52) 0#1 (by omega) (by decide) ?_⟩
    rw [← Nat.pow_add, ← Nat.pow_add, show 52 + (j - 51 - 1 + 1074) = j + 1074 by omega]

/-- R85: `2^k` has exactly the pattern of its value. -/
theorem pow2_bits?_eq_some_iff (k : ℤ) (a : Double) :
    (Literal64.pow2 k).bits? = some a ↔ val64 a = .fin 0#1 (2 ^ k) := by
  by_cases hk : -1074 ≤ k ∧ k ≤ 1023
  · rw [Literal64.bits?, if_pos hk]
    split_ifs with hnonneg
    · lift k to ℕ using hnonneg
      rw [exactDouble_eq_some_iff, Int.toNat_natCast, pow_zero, div_one, zpow_natCast, Nat.cast_pow, Nat.cast_ofNat]
    · obtain ⟨d, rfl⟩ : ∃ d : Nat, k = -d := ⟨k.natAbs, by omega⟩
      rw [exactDouble_eq_some_iff, neg_neg, Int.toNat_natCast, Nat.cast_one, one_div, zpow_neg, zpow_natCast]
  · rw [Literal64.bits?, if_neg hk]
    exact iff_of_false nofun fun h => hk (pow2_range_of_val64_eq_fin h)

theorem pow2_wellFormed_iff (k : ℤ) : (Literal64.pow2 k).wellFormed = true ↔ -1074 ≤ k ∧ k ≤ 1023 := by
  rw [Literal64.wellFormed, Option.isSome_iff_exists]
  simp only [pow2_bits?_eq_some_iff]
  exact ⟨fun ⟨_, h⟩ => pow2_range_of_val64_eq_fin h, exists_val64_eq_two_zpow⟩

/-! ## Hexadecimal literals -/

/-- The digits, the first the most significant, are those of `N` at their places. -/
def SpelledBy (N : Nat) (digits : List HexDigit) : Prop :=
  ∀ (i : Nat) (d : HexDigit), digits[i]? = some d → N / 16 ^ (digits.length - 1 - i) % 16 = d.val

/-- The last digit is the remainder by 16, and the digits before it are those of the quotient. -/
theorem spelledBy_append_singleton (N : Nat) (ds : List HexDigit) (d : HexDigit) :
    SpelledBy N (ds ++ [d]) ↔ SpelledBy (N / 16) ds ∧ N % 16 = d.val := by
  have hplace : ∀ i < ds.length, N / 16 ^ ((ds ++ [d]).length - 1 - i) = N / 16 / 16 ^ (ds.length - 1 - i) := by
    intro i hi
    rw [Nat.div_div_eq_div_mul, ← Nat.pow_succ', List.length_append, List.length_singleton]
    congr 2
    omega
  have hlast : (ds ++ [d]).length - 1 - ds.length = 0 := by simp
  constructor
  · intro h
    refine ⟨fun i c hc => ?_, ?_⟩
    · have hi := (List.getElem?_eq_some_iff.mp hc).1
      rw [← hplace i hi]
      exact h i c (by rw [List.getElem?_append_left hi, hc])
    · simpa [hlast] using h ds.length d (by simp)
  · rintro ⟨h, hd⟩ i c hc
    obtain hi | hi := Nat.lt_or_ge i ds.length
    · rw [hplace i hi]
      exact h i c (by rwa [List.getElem?_append_left hi] at hc)
    · obtain ⟨hi0, rfl⟩ : i - ds.length = 0 ∧ d = c := by
        simpa [List.getElem?_append_right hi, List.getElem?_singleton] using hc
      rw [show i = ds.length by omega, hlast, Nat.pow_zero, Nat.div_one, hd]

/-- A number of that many digits is spelled by the digits that have it as their value. -/
theorem hexValue_eq_iff_spelledBy {N : Nat} {digits : List HexDigit} (hN : N < 16 ^ digits.length) :
    hexValue digits = N ↔ SpelledBy N digits := by
  induction digits using List.reverseRecOn generalizing N with
  | nil =>
    have hzero : N = 0 := Nat.lt_one_iff.mp hN
    exact iff_of_true hzero.symm nofun
  | append_singleton ds d ih =>
    rw [List.length_append, List.length_singleton, Nat.pow_succ] at hN
    rw [spelledBy_append_singleton, ← ih (by omega), hexValue_append]
    simp only [hexValue_cons, hexValue_nil, List.length_nil, List.length_singleton]
    omega

theorem ofNat_hexValue_eq_iff {w : Nat} {digits : List HexDigit} (hw : w = 4 * digits.length) (a : BitVec w) :
    BitVec.ofNat w (hexValue digits) = a ↔ SpelledBy a.toNat digits := by
  have hpow : 2 ^ w = 16 ^ digits.length := by rw [hw, Nat.pow_mul]
  rw [← hexValue_eq_iff_spelledBy (hpow ▸ a.isLt), BitVec.toNat_eq, BitVec.toNat_ofNat,
    Nat.mod_eq_of_lt (hpow ▸ hexValue_lt digits)]

theorem hex_bits?_eq_some_iff (digits : List HexDigit) (a : Double) :
    (Literal64.hex digits).bits? = some a ↔ digits.length = 16 ∧ SpelledBy a.toNat digits := by
  by_cases hlength : digits.length = 16
  · rw [Literal64.bits?, if_pos hlength, Option.some.injEq, ofNat_hexValue_eq_iff (by omega)]
    exact (and_iff_right hlength).symm
  · simp [Literal64.bits?, hlength]

theorem literal16Bits?_eq_some_iff (digits : List HexDigit) (h : Half) :
    literal16Bits? digits = some h ↔ digits.length = 4 ∧ SpelledBy h.toNat digits := by
  by_cases hlength : digits.length = 4
  · rw [literal16Bits?, if_pos hlength, Option.some.injEq, ofNat_hexValue_eq_iff (by omega)]
    exact (and_iff_right hlength).symm
  · simp [literal16Bits?, hlength]

theorem hex_wellFormed_iff (digits : List HexDigit) : (Literal64.hex digits).wellFormed = true ↔ digits.length = 16 := by
  rw [Literal64.wellFormed, Literal64.bits?]
  split_ifs with hlength
  · simp [hlength]
  · simp [hlength]

/-! ## Every literal form -/

/-- Settles O56: a decimal literal and a power of two are exact binary fractions, the digits of a hexadecimal literal are those of its
pattern, and the named patterns are numerals. -/
theorem literalsMeanTheirValue : Obligations.LiteralsMeanTheirValue := by
  refine ⟨decimalBits_eq_some_iff, pow2_bits?_eq_some_iff, pow2_wellFormed_iff, hex_wellFormed_iff,
    fun digits a => ?_, fun digits h => ?_, rfl, rfl, rfl, rfl, rfl, rfl⟩
  · rw [hex_bits?_eq_some_iff]
    exact and_congr_right fun hlength => by rw [SpelledBy, hlength]
  · rw [literal16Bits?_eq_some_iff]
    exact and_congr_right fun hlength => by rw [SpelledBy, hlength]

end Sys2Proof.Machine
end

section
/-!
PROOFS. Rounding to a binary format as rounding to a grid (R17, R21). The finite magnitudes of a format stand in the order of their
patterns, so a magnitude has a *rank*, its pattern without the sign bit, and infinity has the rank that follows the largest finite one.
A rounding is then the rank whose neighbouring midpoints enclose the number; that it is the nearest value, exact on the grid and
monotone is proved here once, for both roundings of ENCODE.
-/

namespace Sys2Proof.Machine

/-! ## Rounding to a rising sequence of values -/

/-- `v` lies beyond the midpoint of the neighbours `g k` and `g (k + 1)`, or on it when the even one of the two is the upper. -/
def PassesMidpoint (g : Nat → ℚ) (v : ℚ) (k : Nat) : Prop :=
  g k + g (k + 1) < 2 * v ∨ (g k + g (k + 1) = 2 * v ∧ k % 2 = 1)

/-- `v` is rounded to the value of rank `n` among those of ranks up to `L`: the midpoints that `v` passes are the `n` lowest. -/
def RoundsTo (g : Nat → ℚ) (L : Nat) (v : ℚ) (n : Nat) : Prop :=
  n ≤ L ∧ ∀ k < L, k < n ↔ PassesMidpoint g v k

section
variable {g : Nat → ℚ} {L n k : Nat} {v w : ℚ}

theorem PassesMidpoint.le (h : PassesMidpoint g v k) : g k + g (k + 1) ≤ 2 * v := by
  rcases h with h | ⟨h, -⟩ <;> linarith

theorem le_of_not_passesMidpoint (h : ¬ PassesMidpoint g v k) : 2 * v ≤ g k + g (k + 1) :=
  not_lt.mp fun hlt => h (.inl hlt)

theorem PassesMidpoint.mono (h : PassesMidpoint g v k) (hvw : v ≤ w) : PassesMidpoint g w k := by
  obtain hlt | heq := hvw.lt_or_eq
  · have := h.le
    exact .inl (by linarith)
  · exact heq ▸ h

theorem PassesMidpoint.of_lt (hg : StrictMono g) {j : Nat} (h : PassesMidpoint g v k) (hj : j < k) : PassesMidpoint g v j := by
  have h0 := hg hj
  have h1 := hg (Nat.succ_lt_succ hj)
  have := h.le
  exact .inl (by linarith)

/-- Only the two midpoints next to the result need to be compared. -/
theorem roundsTo_of_adjacent (hg : StrictMono g) (hn : n ≤ L) (hbelow : ∀ k, k + 1 = n → PassesMidpoint g v k)
    (habove : n < L → ¬ PassesMidpoint g v n) : RoundsTo g L v n := by
  refine ⟨hn, fun k hk => ⟨fun hkn => ?_, fun hpass => ?_⟩⟩
  · have hlast := hbelow (n - 1) (by omega)
    obtain hlt | rfl := (Nat.le_sub_one_of_lt hkn).lt_or_eq
    · exact hlast.of_lt hg hlt
    · exact hlast
  · by_contra hnk
    obtain hlt | rfl := (not_lt.mp hnk).lt_or_eq
    · exact habove (by omega) (hpass.of_lt hg hlt)
    · exact habove hk hpass

theorem RoundsTo.mono {m : Nat} (hn : RoundsTo g L v n) (hm : RoundsTo g L w m) (hvw : v ≤ w) : n ≤ m := by
  by_contra hlt
  have hmL : m < L := (not_le.mp hlt).trans_le hn.1
  have hpass := (hn.2 m hmL).mp (not_le.mp hlt)
  exact lt_irrefl m ((hm.2 m hmL).mpr (hpass.mono hvw))

theorem RoundsTo.unique {m : Nat} (hn : RoundsTo g L v n) (hm : RoundsTo g L v m) : n = m :=
  le_antisymm (hn.mono hm le_rfl) (hm.mono hn le_rfl)

/-- A value of the sequence is rounded to itself. -/
theorem roundsTo_self (hg : StrictMono g) (hn : n ≤ L) : RoundsTo g L (g n) n := by
  refine roundsTo_of_adjacent hg hn (fun k hk => .inl ?_) (fun _ hpass => ?_)
  · have := hg (show k < n by omega)
    rw [hk]
    linarith
  · have := hg (Nat.lt_add_one n)
    have := hpass.le
    linarith

theorem RoundsTo.eq_of_eq (hg : StrictMono g) (h : RoundsTo g L v n) (hk : k ≤ L) (hv : v = g k) : n = k :=
  h.unique (hv ▸ roundsTo_self hg hk)

/-- From the value of the last rank up, everything is rounded to it. -/
theorem roundsTo_last (hg : StrictMono g) (hv : g L ≤ v) : RoundsTo g L v L := by
  refine roundsTo_of_adjacent hg le_rfl (fun k hk => .inl ?_) (fun h => absurd h (lt_irrefl L))
  have := hg (show k < L by omega)
  rw [hk]
  linarith

/-- What is rounded to rank 0: up to the first midpoint, that midpoint included. -/
theorem roundsTo_zero (hg : StrictMono g) (hv : 2 * v ≤ g 0 + g 1) : RoundsTo g L v 0 := by
  refine roundsTo_of_adjacent hg (Nat.zero_le L) (fun k hk => absurd hk (by omega)) (fun _ hpass => ?_)
  rcases hpass with hlt | ⟨-, hodd⟩
  · exact absurd hv (not_le.mpr hlt)
  · exact absurd hodd (by decide)

/-- Below an odd rank `k` and above it, told apart by the midpoint, which is rounded up. -/
theorem RoundsTo.lt_iff_of_odd {c : ℚ} (h : RoundsTo g L v n) (hk : k < L) (hodd : k % 2 = 1) (hmid : g k + g (k + 1) = 2 * c) :
    k < n ↔ c ≤ v := by
  rw [h.2 k hk, PassesMidpoint, hmid, and_iff_left hodd, ← le_iff_lt_or_eq, mul_le_mul_iff_right₀ two_pos]

/-- The same for an even rank, to which its midpoint is rounded. -/
theorem RoundsTo.lt_iff_of_even {c : ℚ} (h : RoundsTo g L v n) (hk : k < L) (heven : k % 2 = 0) (hmid : g k + g (k + 1) = 2 * c) :
    k < n ↔ c < v := by
  have hodd : ¬ k % 2 = 1 := by omega
  rw [h.2 k hk, PassesMidpoint, hmid, or_iff_left fun hand => hodd hand.2, mul_lt_mul_iff_right₀ two_pos]

/-- The result is the nearest value and, where another is as near, it has an even rank (R21). -/
theorem RoundsTo.nearest (hg : StrictMono g) (h : RoundsTo g L v n) (hk : k ≤ L) :
    |g n - v| ≤ |g k - v| ∧ (|g n - v| = |g k - v| → g k ≠ g n → n % 2 = 0) := by
  obtain ⟨hn, hmid⟩ := h
  obtain hlt | rfl | hgt := lt_trichotomy k n
  · obtain ⟨j, rfl⟩ := Nat.exists_eq_add_one_of_ne_zero (Nat.ne_zero_of_lt hlt)
    have hpass := (hmid j (by omega)).mp (Nat.lt_add_one j)
    have hkj : g k ≤ g j := hg.monotone (by omega)
    have hkn := hg hlt
    have hle := hpass.le
    rw [abs_of_nonpos (show g k - v ≤ 0 by linarith)]
    refine ⟨abs_le.mpr ⟨by linarith, by linarith⟩, fun htie _ => ?_⟩
    rcases hpass with hbeyond | ⟨-, hodd⟩
    · rcases abs_cases (g (j + 1) - v) with ⟨habs, -⟩ | ⟨habs, -⟩ <;> linarith
    · omega
  · exact ⟨le_rfl, fun _ hne => absurd rfl hne⟩
  · have hfail : ¬ PassesMidpoint g v n := fun hpass => lt_irrefl n ((hmid n (by omega)).mpr hpass)
    have hnk : g (n + 1) ≤ g k := hg.monotone hgt
    have hnn := hg (Nat.lt_add_one n)
    have hle := le_of_not_passesMidpoint hfail
    rw [abs_of_nonneg (show 0 ≤ g k - v by linarith)]
    refine ⟨abs_le.mpr ⟨by linarith, by linarith⟩, fun htie _ => ?_⟩
    have heq : g n + g (n + 1) = 2 * v := by
      rcases abs_cases (g n - v) with ⟨habs, -⟩ | ⟨habs, -⟩ <;> linarith
    have hnot_odd : ¬ n % 2 = 1 := fun hodd => hfail (.inr ⟨heq, hodd⟩)
    omega

end

/-! ## The grid of a binary format -/

/-- The magnitude of rank `n` of a format with `p` fraction bits, in units of its least positive one: exponent field `n / 2^p` and
fraction `n % 2^p` (R71, R73). Ranks past the largest finite one go on as larger exponents would. -/
def grid (p n : Nat) : Nat :=
  (if n < 2 ^ p then n else 2 ^ p + n % 2 ^ p) * 2 ^ (n / 2 ^ p - 1)

/-- The same magnitude where the least positive one is 2^-u. -/
def gridValue (p u n : Nat) : ℚ := grid p n / 2 ^ u

/-- Rounded significands in their binade: a significand that is carried to 2^(p+1) is the next binade's first value. -/
theorem grid_binade {p e q : Nat} (hlow : e = 0 ∨ 2 ^ p ≤ q) (hhigh : q ≤ 2 ^ (p + 1)) :
    grid p (e * 2 ^ p + q) = q * 2 ^ e := by
  have hpos : 0 < 2 ^ p := Nat.two_pow_pos p
  rw [pow_succ] at hhigh
  obtain hsmall | hbig := lt_or_ge q (2 ^ p)
  · obtain rfl : e = 0 := hlow.resolve_right (by omega)
    simp [grid, hsmall, Nat.div_eq_of_lt hsmall]
  · have hn : ¬ e * 2 ^ p + q < 2 ^ p := by have := Nat.zero_le (e * 2 ^ p); omega
    obtain ⟨f, rfl⟩ := Nat.exists_eq_add_of_le hbig
    obtain hf | hf := lt_or_ge f (2 ^ p)
    · have hn' : e * 2 ^ p + (2 ^ p + f) = f + 2 ^ p * (e + 1) := by ring
      rw [grid, if_neg hn, hn', Nat.add_mul_mod_self_left, Nat.add_mul_div_left _ _ hpos, Nat.mod_eq_of_lt hf,
        Nat.div_eq_of_lt hf, Nat.zero_add, Nat.add_sub_cancel]
    · obtain rfl : f = 2 ^ p := by omega
      have hn' : e * 2 ^ p + (2 ^ p + 2 ^ p) = 2 ^ p * (e + 2) := by ring
      rw [grid, if_neg hn, hn', Nat.mul_mod_right, Nat.mul_div_cancel_left _ hpos, show e + 2 - 1 = e + 1 by omega]
      ring

/-- Every rank is a significand of p + 1 bits in one binade. -/
theorem exists_binade (p n : Nat) :
    ∃ e q, n = e * 2 ^ p + q ∧ (e = 0 ∨ 2 ^ p ≤ q) ∧ q < 2 ^ (p + 1) := by
  have hn := Nat.div_add_mod' n (2 ^ p)
  have hmod := Nat.mod_lt n (Nat.two_pow_pos p)
  have hpow : 2 ^ (p + 1) = 2 * 2 ^ p := Nat.pow_succ'
  obtain h0 | ⟨e, he⟩ : n / 2 ^ p = 0 ∨ ∃ e, n / 2 ^ p = e + 1 := by
    cases n / 2 ^ p <;> simp
  · exact ⟨0, n, by omega, .inl rfl, by rw [h0] at hn; omega⟩
  · rw [he, Nat.succ_mul] at hn
    exact ⟨e, 2 ^ p + n % 2 ^ p, by omega, .inr (Nat.le_add_right ..), by omega⟩

/-- The step from one rank to the next is one unit of the binade. -/
theorem grid_succ {p e q : Nat} (hlow : e = 0 ∨ 2 ^ p ≤ q) (hhigh : q < 2 ^ (p + 1)) :
    grid p (e * 2 ^ p + q + 1) = grid p (e * 2 ^ p + q) + 2 ^ e := by
  rw [grid_binade hlow hhigh.le, Nat.add_assoc, grid_binade (hlow.imp_right (by omega)) hhigh, Nat.succ_mul]

/-- The same for a significand that was carried into the next binade, whose unit is larger. -/
theorem grid_add_le_grid_succ {p e q : Nat} (hlow : e = 0 ∨ 2 ^ p ≤ q) (hhigh : q ≤ 2 ^ (p + 1)) :
    grid p (e * 2 ^ p + q) + 2 ^ e ≤ grid p (e * 2 ^ p + q + 1) := by
  obtain hlt | rfl := hhigh.lt_or_eq
  · exact (grid_succ hlow hlt).ge
  · have hcarry : e * 2 ^ p + 2 ^ (p + 1) = (e + 1) * 2 ^ p + 2 ^ p := by ring
    rw [hcarry, grid_succ (.inr le_rfl) (Nat.pow_lt_pow_succ one_lt_two)]
    gcongr <;> omega

theorem grid_strictMono (p : Nat) : StrictMono (grid p) := by
  refine strictMono_nat_of_lt_succ fun n => ?_
  obtain ⟨e, q, rfl, hlow, hhigh⟩ := exists_binade p n
  rw [grid_succ hlow hhigh]
  exact Nat.lt_add_of_pos_right (Nat.two_pow_pos e)

theorem gridValue_strictMono (p u : Nat) : StrictMono (gridValue p u) := fun _ _ h =>
  div_lt_div_of_pos_right (Nat.cast_lt.mpr (grid_strictMono p h)) (by positivity)

/-- Every integer of p + 1 bits, times a power of two, is on the grid. -/
theorem exists_grid_eq {p m : Nat} (j : Nat) (hm : m < 2 ^ (p + 1)) : ∃ n, grid p n = m * 2 ^ j := by
  induction j generalizing m with
  | zero => exact ⟨0 * 2 ^ p + m, grid_binade (.inl rfl) hm.le⟩
  | succ j ih =>
    by_cases h : 2 ^ p ≤ m
    · exact ⟨(j + 1) * 2 ^ p + m, grid_binade (.inr h) hm.le⟩
    · obtain ⟨n, hn⟩ := ih (m := 2 * m) (by rw [pow_succ]; omega)
      exact ⟨n, by rw [hn]; ring⟩

/-- The value formulas of R71 and R73 on the fields of a pattern. -/
theorem gridValue_fields {p e f : Nat} (u : Nat) (hf : f < 2 ^ p) :
    gridValue p u (e * 2 ^ p + f) =
      if e = 0 then (f : ℚ) * 2 ^ (-(u : ℤ)) else (2 ^ p + f : ℚ) * 2 ^ ((e : ℤ) - (u + 1)) := by
  have hpow : 2 ^ (p + 1) = 2 ^ p + 2 ^ p := by ring
  cases e with
  | zero =>
    rw [if_pos rfl, gridValue, grid_binade (.inl rfl) (by omega), zpow_neg, zpow_natCast, div_eq_mul_inv]
    simp
  | succ e =>
    have hsplit : (e + 1) * 2 ^ p + f = e * 2 ^ p + (2 ^ p + f) := by ring
    have hexp : ((e + 1 : Nat) : ℤ) - (u + 1) = e - u := by push_cast; ring
    rw [if_neg (Nat.succ_ne_zero e), gridValue, hsplit, grid_binade (.inr (by omega)) (by omega), hexp,
      zpow_sub₀ two_ne_zero, zpow_natCast, zpow_natCast]
    push_cast
    ring

/-! ## RoundRNE rounds to the grid -/

theorem roundRNE_mul_two_pow (q k : Nat) : roundRNE (q * 2 ^ k) k = q := by
  have hpos := Nat.two_pow_pos k
  rw [roundRNE_eq, Nat.mul_mod_left, Nat.mul_div_cancel _ hpos, if_neg (by omega), Nat.add_zero]

theorem roundRNE_le_of_le {m k q : Nat} (h : m ≤ q * 2 ^ k) : roundRNE m k ≤ q :=
  (roundRNE_mono k h).trans_eq (roundRNE_mul_two_pow q k)

theorem le_roundRNE_of_le {m k q : Nat} (h : q * 2 ^ k ≤ m) : q ≤ roundRNE m k :=
  (roundRNE_mul_two_pow q k).symm.trans_le (roundRNE_mono k h)

/-- What R17 rounds is between the midpoints of the result and its two neighbours, on one of them only for an even result. -/
theorem roundRNE_between (m k : Nat) :
    (2 * m ≤ (roundRNE m k + (roundRNE m k + 1)) * 2 ^ k ∧
      (2 * m = (roundRNE m k + (roundRNE m k + 1)) * 2 ^ k → roundRNE m k % 2 = 0)) ∧
    ∀ r, roundRNE m k = r + 1 →
      (r + (r + 1)) * 2 ^ k < 2 * m ∨ ((r + (r + 1)) * 2 ^ k = 2 * m ∧ r % 2 = 1) := by
  obtain ⟨hle, htie⟩ := roundRNE_error m k
  have hcast : (2 : Int) ^ k = ((2 ^ k : Nat) : Int) := by push_cast; rfl
  have habove : (roundRNE m k + (roundRNE m k + 1)) * 2 ^ k = 2 * (roundRNE m k * 2 ^ k) + 2 ^ k := by ring
  have hbelow : ∀ r, roundRNE m k = r + 1 → (r + (r + 1)) * 2 ^ k + 2 ^ k = 2 * (roundRNE m k * 2 ^ k) := by
    intro r hr
    rw [hr]
    ring
  rw [hcast] at hle htie
  rw [habove]
  generalize roundRNE m k * 2 ^ k = A at *
  refine ⟨?_, fun r hr => ?_⟩
  · rcases abs_cases ((A : Int) - m) with ⟨habs, hsign⟩ | ⟨habs, hsign⟩ <;> omega
  · have := hbelow r hr
    rcases abs_cases ((A : Int) - m) with ⟨habs, hsign⟩ | ⟨habs, hsign⟩ <;> omega

/-- The midpoints of the grid, for a number given by a significand: an equation over the natural numbers. -/
theorem passesMidpoint_gridValue_iff {p u m e k : Nat} {v : ℚ} (j : Nat) (hv : v * 2 ^ u * 2 ^ k = m * 2 ^ e) :
    PassesMidpoint (gridValue p u) v j ↔
      (grid p j + grid p (j + 1)) * 2 ^ k < 2 * m * 2 ^ e ∨
        ((grid p j + grid p (j + 1)) * 2 ^ k = 2 * m * 2 ^ e ∧ j % 2 = 1) := by
  have hmid : gridValue p u j + gridValue p u (j + 1) =
      ((grid p j + grid p (j + 1)) * 2 ^ k : Nat) / (2 ^ u * 2 ^ k) := by
    unfold gridValue
    push_cast
    field_simp
  have hnum : 2 * v = ((2 * m * 2 ^ e : Nat) : ℚ) / (2 ^ u * 2 ^ k) := by
    rw [eq_div_iff (by positivity)]
    push_cast
    linear_combination 2 * hv
  rw [PassesMidpoint, hmid, hnum, div_lt_div_iff_of_pos_right (by positivity), div_left_inj' (by positivity), Nat.cast_lt,
    Nat.cast_inj]

/-! A significand `m` is rounded off by `k` bits in binade `e`. -/

section
variable {p u e m k : Nat} {v : ℚ} (hlow : e = 0 ∨ 2 ^ p * 2 ^ k ≤ m) (hhigh : m ≤ 2 ^ (p + 1) * 2 ^ k)
  (hv : v * 2 ^ u * 2 ^ k = m * 2 ^ e)
include hlow hhigh hv

/-- The midpoint above the result is not passed: the next value is a unit of the binade away, or more after a carry. -/
theorem not_passesMidpoint_roundRNE (heven : e * 2 ^ p % 2 = 0) :
    ¬ PassesMidpoint (gridValue p u) v (e * 2 ^ p + roundRNE m k) := by
  obtain ⟨⟨hup, htie⟩, -⟩ := roundRNE_between m k
  have hqlow := hlow.imp_right le_roundRNE_of_le
  have hqhigh := roundRNE_le_of_le hhigh
  generalize roundRNE m k = q at *
  have hgrid := grid_binade hqlow hqhigh
  have hnext : q * 2 ^ e + 2 ^ e ≤ grid p (e * 2 ^ p + q + 1) := hgrid ▸ grid_add_le_grid_succ hqlow hqhigh
  have hsum : (q + (q + 1)) * 2 ^ k * 2 ^ e ≤ (q * 2 ^ e + grid p (e * 2 ^ p + q + 1)) * 2 ^ k :=
    calc (q + (q + 1)) * 2 ^ k * 2 ^ e = (q * 2 ^ e + (q * 2 ^ e + 2 ^ e)) * 2 ^ k := by ring
      _ ≤ _ := by gcongr
  have hup' : 2 * m * 2 ^ e ≤ (q + (q + 1)) * 2 ^ k * 2 ^ e := Nat.mul_le_mul_right _ hup
  rw [passesMidpoint_gridValue_iff _ hv, hgrid]
  rintro (hlt | ⟨heq, hodd⟩)
  · exact absurd (hsum.trans_lt hlt) (not_lt.mpr hup')
  · have := htie (Nat.eq_of_mul_eq_mul_right (Nat.two_pow_pos e) (hup'.antisymm (hsum.trans heq.le)))
    omega

/-- The midpoint below the result is passed: the value before it is a unit of the binade away, or belongs to the binade below, where
the number itself is not. -/
theorem passesMidpoint_of_succ_eq_roundRNE (heven : e * 2 ^ p % 2 = 0) {j : Nat} (hj : j + 1 = e * 2 ^ p + roundRNE m k) :
    PassesMidpoint (gridValue p u) v j := by
  obtain ⟨-, hdown⟩ := roundRNE_between m k
  have hqlow := hlow.imp_right le_roundRNE_of_le
  have hqhigh := roundRNE_le_of_le hhigh
  generalize roundRNE m k = q at *
  have hgrid := grid_binade hqlow hqhigh
  rw [passesMidpoint_gridValue_iff j hv, hj, hgrid]
  obtain ⟨he, rfl⟩ | hinner : (e ≠ 0 ∧ q = 2 ^ p) ∨ (e = 0 ∨ 2 ^ p < q) := by omega
  · have hm := hlow.resolve_left he
    have hbefore : grid p j < 2 ^ p * 2 ^ e := hgrid ▸ grid_strictMono p (show j < e * 2 ^ p + 2 ^ p by omega)
    left
    calc (grid p j + 2 ^ p * 2 ^ e) * 2 ^ k < (2 ^ p * 2 ^ e + 2 ^ p * 2 ^ e) * 2 ^ k := by gcongr
      _ = 2 * (2 ^ p * 2 ^ k) * 2 ^ e := by ring
      _ ≤ 2 * m * 2 ^ e := by gcongr
  · have hq : q ≠ 0 := by
      rintro rfl
      obtain rfl : e = 0 := by omega
      omega
    obtain ⟨r, rfl⟩ := Nat.exists_eq_add_one_of_ne_zero hq
    obtain rfl : j = e * 2 ^ p + r := by omega
    have hsum : (r * 2 ^ e + (r + 1) * 2 ^ e) * 2 ^ k = (r + (r + 1)) * 2 ^ k * 2 ^ e := by ring
    have hparity : (e * 2 ^ p + r) % 2 = r % 2 := by omega
    rw [grid_binade (by omega) (by omega), hsum, Nat.mul_lt_mul_right (Nat.two_pow_pos e),
      Nat.mul_left_inj (Nat.two_pow_pos e).ne', hparity]
    exact hdown r rfl

/-- RoundRNE in whatever binade (R17, R102, R111, R112): its result, carry included, is the rank that the number is rounded to. -/
theorem roundsTo_roundRNE {L : Nat} (hp : p ≠ 0) (hL : e * 2 ^ p + 2 ^ (p + 1) ≤ L) :
    RoundsTo (gridValue p u) L v (e * 2 ^ p + roundRNE m k) := by
  have heven : e * 2 ^ p % 2 = 0 := Nat.mod_eq_zero_of_dvd ((dvd_pow_self 2 hp).mul_left e)
  have hmax := roundRNE_le_of_le hhigh
  exact roundsTo_of_adjacent (gridValue_strictMono p u) (by omega)
    (fun _ => passesMidpoint_of_succ_eq_roundRNE hlow hhigh hv heven) fun _ => not_passesMidpoint_roundRNE hlow hhigh hv heven

end

end Sys2Proof.Machine
end

section
/-!
PROOFS. The two roundings of ENCODE in ranks: stage 2 rounds a binary32 value to the grid of binary16 (R101, R104 to R114), and Narrow
rounds a binary64 value to that of binary32 (R102).
-/

namespace Sys2Proof.Machine

/-! ## Patterns and ranks -/

/-- A half pattern without its sign bit. -/
def rank16 (h : Half) : Nat := exp5 h * 2 ^ 10 + frac10 h

/-- A binary32 pattern without its sign bit. -/
def rank32 (f : Single) : Nat := exp8 f * 2 ^ 23 + frac23 f

/-- The half pattern of a sign and a rank. -/
def halfOfRank (s : BitVec 1) (n : Nat) : Half := pack16 s (n / 2 ^ 10) (n % 2 ^ 10)

/-- The binary32 pattern of a sign and a rank. -/
def singleOfRank (s : BitVec 1) (n : Nat) : Single := pack32 s (n / 2 ^ 23) (n % 2 ^ 23)

/-- The magnitude of a half of rank `n` (R71); 0x7C00, the rank of infinity, gets 2^16. -/
def halfValue : Nat → ℚ := gridValue 10 24

/-- The magnitude of a binary32 pattern of rank `n` (R73); 0x7F800000, the rank of infinity, gets 2^128. -/
def singleValue : Nat → ℚ := gridValue 23 149

theorem halfValue_strictMono : StrictMono halfValue := gridValue_strictMono 10 24

theorem singleValue_strictMono : StrictMono singleValue := gridValue_strictMono 23 149

@[simp] theorem sign16_halfOfRank (s : BitVec 1) (n : Nat) : sign16 (halfOfRank s n) = s := sign16_pack16 ..

@[simp] theorem sign32_singleOfRank (s : BitVec 1) (n : Nat) : sign32 (singleOfRank s n) = s := sign32_pack32 ..

theorem rank16_pack16 (s : BitVec 1) {e f : Nat} (he : e < 32) (hf : f < 2 ^ 10) :
    rank16 (pack16 s e f) = e * 2 ^ 10 + f := by
  rw [rank16, exp5_pack16 s e f he, frac10_pack16 s e f hf]

theorem rank32_pack32 (s : BitVec 1) {e f : Nat} (he : e < 256) (hf : f < 2 ^ 23) :
    rank32 (pack32 s e f) = e * 2 ^ 23 + f := by
  rw [rank32, exp8_pack32 s e f he, frac23_pack32 s e f hf]

theorem rank16_halfOfRank (s : BitVec 1) {n : Nat} (h : n < 2 ^ 15) : rank16 (halfOfRank s n) = n := by
  rw [halfOfRank, rank16_pack16 s (by omega) (by omega)]
  omega

theorem rank32_singleOfRank (s : BitVec 1) {n : Nat} (h : n < 2 ^ 31) : rank32 (singleOfRank s n) = n := by
  rw [singleOfRank, rank32_pack32 s (by omega) (by omega)]
  omega

theorem pack16_eq_halfOfRank (s : BitVec 1) {e f : Nat} (hf : f < 2 ^ 10) : pack16 s e f = halfOfRank s (e * 2 ^ 10 + f) := by
  rw [halfOfRank]
  congr 1 <;> omega

theorem halfOfRank_rank16 (h : Half) : halfOfRank (sign16 h) (rank16 h) = h := by
  rw [rank16, ← pack16_eq_halfOfRank _ (frac10_lt h), pack16_fields]

theorem pack32_eq_singleOfRank (s : BitVec 1) {e f : Nat} (hf : f < 2 ^ 23) : pack32 s e f = singleOfRank s (e * 2 ^ 23 + f) := by
  rw [singleOfRank]
  congr 1 <;> omega

theorem append_ofNat31_eq_singleOfRank (s : BitVec 1) {n : Nat} (h : n < 2 ^ 31) :
    s ++ BitVec.ofNat 31 n = singleOfRank s n := by
  apply BitVec.eq_of_toNat_eq
  rw [BitVec.toNat_append, Nat.shiftLeft_eq, Nat.mul_comm, ← Nat.two_pow_add_eq_or_of_lt (BitVec.isLt _), singleOfRank, pack32,
    toNat_append3]
  simp only [BitVec.toNat_ofNat]
  omega

/-- Placing a number below `halfSign` (R105). -/
theorem halfSign_or_ofNat (f : Single) {n : Nat} (h : n < 2 ^ 15) : halfSign f ||| BitVec.ofNat 16 n = halfOfRank (sign32 f) n := by
  have hsign : halfSign f = sign32 f ++ 0#15 := by
    unfold halfSign
    obtain hs | hs := BitVec.eq_zero_or_eq_one (sign32 f) <;> rw [hs] <;> rfl
  apply BitVec.eq_of_toNat_eq
  have hn : n % 2 ^ 16 = n := Nat.mod_eq_of_lt (by omega)
  rw [hsign, BitVec.toNat_or, BitVec.toNat_append, BitVec.toNat_ofNat, BitVec.toNat_ofNat, hn, Nat.zero_mod, Nat.or_zero,
    Nat.shiftLeft_eq, Nat.mul_comm, ← Nat.two_pow_add_eq_or_of_lt h, halfOfRank, pack16, toNat_append3]
  simp only [BitVec.toNat_ofNat]
  omega

theorem halfInfinity_eq (f : Single) : halfInfinity f = halfOfRank (sign32 f) 0x7C00 := halfSign_or_ofNat f (by decide)

theorem halfSign_eq (f : Single) : halfSign f = halfOfRank (sign32 f) 0 := by
  rw [← halfSign_or_ofNat f (by decide)]
  exact (BitVec.or_zero ..).symm

/-! ## Values of ranks -/

theorem rank16_lt_iff (h : Half) : rank16 h < 0x7C00 ↔ exp5 h ≠ 31 := by
  have he := exp5_lt h
  have hf := frac10_lt h
  unfold rank16
  omega

theorem val16_of_rank_lt {h : Half} (hlt : rank16 h < 0x7C00) : val16 h = .fin (sign16 h) (halfValue (rank16 h)) := by
  have hfinite := (rank16_lt_iff h).mp hlt
  rw [halfValue, rank16, gridValue_fields 24 (frac10_lt h), val16]
  by_cases h0 : exp5 h = 0
  · rw [if_pos h0, if_pos h0]
    rfl
  · rw [if_neg h0, if_neg hfinite, if_neg h0]
    norm_num

theorem val16_eq_fin_iff (h : Half) (s : BitVec 1) (y : ℚ) :
    val16 h = .fin s y ↔ rank16 h < 0x7C00 ∧ sign16 h = s ∧ halfValue (rank16 h) = y := by
  by_cases hlt : rank16 h < 0x7C00
  · rw [val16_of_rank_lt hlt, Value.fin.injEq, and_iff_right hlt]
  · have hexp := not_not.mp fun hne => hlt ((rank16_lt_iff h).mpr hne)
    have hval : val16 h ≠ .fin s y := by
      rw [val16, if_neg (by omega), if_pos hexp]
      split_ifs <;> simp
    simp only [hval, hlt, false_and]

theorem rank32_lt_iff (f : Single) : rank32 f < 0x7F800000 ↔ exp8 f ≠ 255 := by
  have he := exp8_lt f
  have hf := frac23_lt f
  unfold rank32
  omega

theorem val32_of_rank_lt {f : Single} (hlt : rank32 f < 0x7F800000) : val32 f = .fin (sign32 f) (singleValue (rank32 f)) := by
  have hfinite := (rank32_lt_iff f).mp hlt
  rw [singleValue, rank32, gridValue_fields 149 (frac23_lt f), val32]
  by_cases h0 : exp8 f = 0
  · rw [if_pos h0, if_pos h0]
    rfl
  · rw [if_neg h0, if_neg hfinite, if_neg h0]
    norm_num

theorem val32_eq_fin_iff (f : Single) (s : BitVec 1) (y : ℚ) :
    val32 f = .fin s y ↔ rank32 f < 0x7F800000 ∧ sign32 f = s ∧ singleValue (rank32 f) = y := by
  by_cases hlt : rank32 f < 0x7F800000
  · rw [val32_of_rank_lt hlt, Value.fin.injEq, and_iff_right hlt]
  · have hexp := not_not.mp fun hne => hlt ((rank32_lt_iff f).mpr hne)
    have hval : val32 f ≠ .fin s y := by
      rw [val32, if_neg (by omega), if_pos hexp]
      split_ifs <;> simp
    simp only [hval, hlt, false_and]


theorem val16_halfOfRank (s : BitVec 1) {n : Nat} (h : n < 0x7C00) : val16 (halfOfRank s n) = .fin s (halfValue n) := by
  rw [val16_eq_fin_iff, rank16_halfOfRank s (by omega)]
  exact ⟨h, sign16_halfOfRank s n, rfl⟩

theorem val32_singleOfRank (s : BitVec 1) {n : Nat} (h : n < 0x7F800000) : val32 (singleOfRank s n) = .fin s (singleValue n) := by
  rw [val32_eq_fin_iff, rank32_singleOfRank s (by omega)]
  exact ⟨h, sign32_singleOfRank s n, rfl⟩

/-! ## Numbers given by a significand and an exponent -/

section
variable {a b u k e m c L p : Nat} {v : ℚ} (hv : v * 2 ^ a = m * 2 ^ b)
include hv

/-- The number in units of 2^-(u+k). -/
theorem mul_two_pow_of_eq (h : u + k + b = a + e) : v * 2 ^ u * 2 ^ k = m * 2 ^ e := by
  apply mul_right_cancel₀ (pow_ne_zero b (two_ne_zero' ℚ))
  calc v * 2 ^ u * 2 ^ k * 2 ^ b = v * 2 ^ (u + k + b) := by ring
    _ = v * 2 ^ a * 2 ^ e := by rw [h]; ring
    _ = m * 2 ^ e * 2 ^ b := by rw [hv]; ring

/-- Too small for the least value of the format: rounded to zero. -/
theorem roundsTo_zero_of_lt (hp : p ≠ 0) (hm : m ≤ 2 ^ c) (h : c + b + u + 1 ≤ a) : RoundsTo (gridValue p u) L v 0 := by
  have hone : gridValue p u 0 + gridValue p u 1 = 1 / 2 ^ u := by
    have h1 : 1 < 2 ^ p := Nat.one_lt_two_pow hp
    simp [gridValue, grid, h1, Nat.div_eq_of_lt h1]
  refine roundsTo_zero (gridValue_strictMono p u) ?_
  rw [hone, le_div_iff₀ (by positivity)]
  apply le_of_mul_le_mul_right _ (show (0 : ℚ) < 2 ^ a by positivity)
  calc 2 * v * 2 ^ u * 2 ^ a = m * 2 ^ (b + u + 1) := by linear_combination 2 * 2 ^ u * hv
    _ ≤ 2 ^ c * 2 ^ (b + u + 1) := by gcongr; exact_mod_cast hm
    _ = 2 ^ (c + b + u + 1) := by ring
    _ ≤ 1 * 2 ^ a := by rw [one_mul]; exact pow_le_pow_right₀ one_le_two h

/-- Too large for the format: rounded to the rank of infinity. -/
theorem roundsTo_last_of_le (hm : 2 ^ c ≤ m) (h : p + e + a ≤ c + b + u) :
    RoundsTo (gridValue p u) (e * 2 ^ p + 2 ^ p) v (e * 2 ^ p + 2 ^ p) := by
  refine roundsTo_last (gridValue_strictMono p u) ?_
  rw [gridValue, grid_binade (.inr le_rfl) (Nat.pow_le_pow_right two_pos (by omega)), div_le_iff₀ (by positivity)]
  apply le_of_mul_le_mul_right _ (show (0 : ℚ) < 2 ^ a by positivity)
  calc ((2 ^ p * 2 ^ e : Nat) : ℚ) * 2 ^ a = 2 ^ (p + e + a) := by push_cast; ring
    _ ≤ 2 ^ (c + b + u) := pow_le_pow_right₀ one_le_two h
    _ = 2 ^ c * 2 ^ (b + u) := by ring
    _ ≤ m * 2 ^ (b + u) := by gcongr; exact_mod_cast hm
    _ = v * 2 ^ u * 2 ^ a := by linear_combination -(2 : ℚ) ^ u * hv

end

/-! ## Stage 2, path by path (R106 to R114) -/

section
variable {f : Single}

theorem halfFromSingle_nan (he : exp8 f = 255) (hf : frac23 f ≠ 0) : halfFromSingle f = halfSign f ||| 0x7E00#16 := by
  rw [halfFromSingle, if_pos he, if_pos hf]

theorem halfFromSingle_infinity (he : exp8 f = 255) (hf : frac23 f = 0) : halfFromSingle f = halfInfinity f := by
  rw [halfFromSingle, if_pos he, if_neg (not_not.mpr hf)]

theorem halfFromSingle_overflow (hlow : 143 ≤ exp8 f) (hhigh : exp8 f ≤ 254) : halfFromSingle f = halfInfinity f := by
  rw [halfFromSingle, if_neg (by omega), if_pos (by unfold rebias; omega)]

theorem halfFromSingle_underflow (hhigh : exp8 f ≤ 101) : halfFromSingle f = halfSign f := by
  rw [halfFromSingle, if_neg (by omega), if_neg (by unfold rebias; omega), if_pos (by unfold rebias; omega),
    if_pos (by unfold rebias; omega)]

/-- The fraction with the hidden bit. -/
theorem frac23_or_hidden (f : Single) : frac23 f ||| 0x800000 = 2 ^ 23 + frac23 f := by
  rw [Nat.or_comm]
  exact (Nat.two_pow_add_eq_or_of_lt (frac23_lt f) 1).symm

theorem halfFromSingle_subnormal (hlow : 102 ≤ exp8 f) (hhigh : exp8 f ≤ 112) :
    halfFromSingle f = halfSign f ||| BitVec.ofNat 16 (roundRNE (2 ^ 23 + frac23 f) (126 - exp8 f)) := by
  have hshift : (14 - rebias f).toNat = 126 - exp8 f := by unfold rebias; omega
  rw [halfFromSingle, if_neg (by omega), if_neg (by unfold rebias; omega), if_pos (by unfold rebias; omega),
    if_neg (by unfold rebias; omega), halfSubnormal, hshift, frac23_or_hidden]

/-- R111: the rounded mantissa has at most the bits that the shift leaves, or is the power of two above them. -/
theorem roundRNE_mantissa_le (f : Single) {k : Nat} (hk : k ≤ 24) : roundRNE (2 ^ 23 + frac23 f) k ≤ 2 ^ (24 - k) := by
  have hf := frac23_lt f
  apply roundRNE_le_of_le
  rw [← pow_add, Nat.sub_add_cancel hk]
  omega

theorem roundRNE_frac23_le (f : Single) : roundRNE (frac23 f) 13 ≤ 0x400 := by
  have := frac23_lt f
  have := roundRNE_le (frac23 f) 13
  omega

/-- Placing an exponent and a fraction below `halfSign`. -/
theorem halfSign_or_fields (f : Single) {e m : Nat} (he : e < 32) (hm : m < 2 ^ 10) :
    halfSign f ||| (BitVec.ofNat 16 e <<< 10) ||| BitVec.ofNat 16 m = halfOfRank (sign32 f) (e * 2 ^ 10 + m) := by
  have hfields : BitVec.ofNat 16 e <<< 10 ||| BitVec.ofNat 16 m = BitVec.ofNat 16 (e * 2 ^ 10 + m) := by
    apply BitVec.eq_of_toNat_eq
    have he' : e % 2 ^ 16 * 2 ^ 10 % 2 ^ 16 = 2 ^ 10 * e := by omega
    have hm' : m % 2 ^ 16 = m := by omega
    rw [BitVec.toNat_or, BitVec.toNat_shiftLeft, BitVec.toNat_ofNat, BitVec.toNat_ofNat, BitVec.toNat_ofNat, Nat.shiftLeft_eq,
      he', hm', ← Nat.two_pow_add_eq_or_of_lt hm]
    omega
  rw [BitVec.or_assoc, hfields, halfSign_or_ofNat f (by omega)]

/-- R112 to R114: with the carry into the exponent, and with saturation, the rank is one sum. -/
theorem halfFromSingle_normal (hlow : 113 ≤ exp8 f) (hhigh : exp8 f ≤ 142) :
    halfFromSingle f = halfOfRank (sign32 f) ((exp8 f - 112) * 2 ^ 10 + roundRNE (frac23 f) 13) := by
  have hexp : (rebias f).toNat = exp8 f - 112 := by unfold rebias; omega
  have hle := roundRNE_frac23_le f
  rw [halfFromSingle, if_neg (by omega), if_neg (by unfold rebias; omega), if_neg (by unfold rebias; omega), halfNormal]
  simp only [hexp]
  split_ifs with hcarry hsat
  · rw [halfInfinity_eq]
    exact congrArg (halfOfRank _) (by omega)
  · refine (halfSign_or_fields f (e := exp8 f - 112 + 1) (m := 0) (by omega) (by decide)).trans ?_
    exact congrArg (halfOfRank _) (by omega)
  · exact halfSign_or_fields f (by omega) (by omega)

/-- The hidden bit takes no part in the rounding of R112. -/
theorem roundRNE_hidden (f : Single) : roundRNE (2 ^ 23 + frac23 f) 13 = 2 ^ 10 + roundRNE (frac23 f) 13 := by
  rw [roundRNE_eq, roundRNE_eq]
  split_ifs <;> omega

/-- The magnitude of a binary32 pattern by its fields, in units of 2^-149. -/
theorem singleValue_rank32 (h : exp8 f ≠ 0) :
    singleValue (rank32 f) * 2 ^ 149 = ((2 ^ 23 + frac23 f : Nat) : ℚ) * 2 ^ (exp8 f - 1) := by
  have hf := frac23_lt f
  have hrank : rank32 f = (exp8 f - 1) * 2 ^ 23 + (2 ^ 23 + frac23 f) := by unfold rank32; omega
  rw [singleValue, gridValue, div_mul_cancel₀ _ (by positivity), hrank, grid_binade (.inr (by omega)) (by omega), cast_mul_two_pow]

theorem singleValue_rank32_subnormal (h : exp8 f = 0) :
    singleValue (rank32 f) * 2 ^ 149 = (frac23 f : ℚ) * 2 ^ 0 := by
  have hf := frac23_lt f
  have hrank : rank32 f = 0 * 2 ^ 23 + frac23 f := by unfold rank32; omega
  rw [singleValue, gridValue, div_mul_cancel₀ _ (by positivity), hrank, grid_binade (.inl rfl) (by omega), cast_mul_two_pow]

/-- Stage 2 on every pattern but a NaN: its result has the rank that the magnitude is rounded to. -/
theorem halfFromSingle_roundsTo (h : rank32 f ≤ 0x7F800000) :
    ∃ n, halfFromSingle f = halfOfRank (sign32 f) n ∧ RoundsTo halfValue 0x7C00 (singleValue (rank32 f)) n := by
  have hf := frac23_lt f
  have he : exp8 f ≤ 254 ∨ (exp8 f = 255 ∧ frac23 f = 0) := by unfold rank32 at h; omega
  obtain h101 | h112 | h142 | h143 : exp8 f ≤ 101 ∨ (102 ≤ exp8 f ∧ exp8 f ≤ 112) ∨ (113 ≤ exp8 f ∧ exp8 f ≤ 142) ∨ 143 ≤ exp8 f := by
    omega
  · refine ⟨0, by rw [halfFromSingle_underflow h101, halfSign_eq], ?_⟩
    obtain h0 | h0 := eq_or_ne (exp8 f) 0
    · exact roundsTo_zero_of_lt (singleValue_rank32_subnormal h0) (by decide) hf.le (by decide)
    · exact roundsTo_zero_of_lt (c := 24) (singleValue_rank32 h0) (by decide) (by omega) (by omega)
  · obtain ⟨hlow, hhigh⟩ := h112
    have hq : roundRNE (2 ^ 23 + frac23 f) (126 - exp8 f) ≤ 2 ^ 10 :=
      (roundRNE_mantissa_le f (by omega)).trans (Nat.pow_le_pow_right two_pos (by omega))
    have hm : 2 ^ 23 + frac23 f ≤ 2 ^ (10 + 1) * 2 ^ (126 - exp8 f) := by
      rw [← pow_add]
      exact (show 2 ^ 23 + frac23 f ≤ 2 ^ 24 by omega).trans (Nat.pow_le_pow_right two_pos (by omega))
    refine ⟨roundRNE (2 ^ 23 + frac23 f) (126 - exp8 f), ?_, ?_⟩
    · rw [halfFromSingle_subnormal hlow hhigh, halfSign_or_ofNat f (by omega)]
    · have hround := roundsTo_roundRNE (p := 10) (u := 24) (L := 0x7C00) (.inl rfl) hm
        (mul_two_pow_of_eq (singleValue_rank32 (f := f) (by omega)) (by omega)) (by decide) (by decide)
      rwa [Nat.zero_mul, Nat.zero_add] at hround
  · obtain ⟨hlow, hhigh⟩ := h142
    refine ⟨_, halfFromSingle_normal hlow hhigh, ?_⟩
    have hrank : (exp8 f - 112) * 2 ^ 10 + roundRNE (frac23 f) 13 =
        (exp8 f - 113) * 2 ^ 10 + roundRNE (2 ^ 23 + frac23 f) 13 := by
      rw [roundRNE_hidden]
      omega
    rw [hrank]
    exact roundsTo_roundRNE (.inr (by omega)) (by omega) (mul_two_pow_of_eq (singleValue_rank32 (by omega)) (by omega))
      (by decide) (by omega)
  · refine ⟨0x7C00, ?_, roundsTo_last_of_le (p := 10) (e := 30) (c := 23) (singleValue_rank32 (by omega)) (by omega) (by omega)⟩
    obtain h254 | ⟨h255, hf0⟩ := he
    · rw [halfFromSingle_overflow h143 h254, halfInfinity_eq]
    · rw [halfFromSingle_infinity h255 hf0, halfInfinity_eq]

end

/-! ## Narrow (R102) -/

theorem narrowNormal_eq (s : BitVec 1) {m e8 : Nat} (hm : 2 ^ 52 ≤ m ∧ m < 2 ^ 53) (he : 1 ≤ e8 ∧ e8 ≤ 254) :
    narrowNormal s m e8 = singleOfRank s ((e8 - 1) * 2 ^ 23 + roundRNE m 29) := by
  have hlow := roundRNE_ge m 29
  have hhigh := roundRNE_le m 29
  unfold narrowNormal
  dsimp only
  split_ifs with hcarry hsat
  · rw [pack32_eq_singleOfRank s (by decide)]
    exact congrArg (singleOfRank s) (by omega)
  · rw [pack32_eq_singleOfRank s (by decide)]
    exact congrArg (singleOfRank s) (by omega)
  · rw [pack32_eq_singleOfRank s (by omega)]
    exact congrArg (singleOfRank s) (by omega)

theorem append_zero_eq_singleOfRank (s : BitVec 1) : s ++ 0#31 = singleOfRank s 0 :=
  append_ofNat31_eq_singleOfRank s (by decide)

/-- Narrow of a finite value has the rank that the value is rounded to. -/
theorem narrow_roundsTo {a : Double} {s : BitVec 1} {v : ℚ} (h : val64 a = .fin s v) :
    ∃ r, narrow a = singleOfRank s r ∧ RoundsTo singleValue 0x7F800000 v r := by
  obtain ⟨hfinite, hsign, hunit⟩ := (val64_eq_fin_iff a s v).mp h
  rw [cast_mul_two_pow] at hunit
  have hv : v * 2 ^ 1074 = (significand64 a : ℚ) * 2 ^ scale64 a := hunit.symm
  have he := exp11_lt a
  have hf := frac52_lt a
  have hsig := significand64_lt a
  rw [narrow, if_neg hfinite, hsign]
  by_cases h0 : exp11 a = 0
  · rw [if_pos h0]
    exact ⟨0, append_zero_eq_singleOfRank s,
      roundsTo_zero_of_lt hv (by decide) hsig.le (by unfold scale64; omega)⟩
  have hm : 2 ^ 52 ||| frac52 a = significand64 a := by
    rw [significand64, if_neg h0]
    exact (Nat.two_pow_add_eq_or_of_lt hf 1).symm
  have hlead : 2 ^ 52 ≤ significand64 a := by rw [significand64, if_neg h0]; omega
  rw [if_neg h0]
  simp only [hm]
  split_ifs with hover hnormal
  · refine ⟨0x7F800000, pack32_eq_singleOfRank s (by decide), ?_⟩
    exact roundsTo_last_of_le (p := 23) (e := 254) hv hlead (by unfold scale64; omega)
  · rw [narrowNormal_eq s ⟨hlead, hsig⟩ (by omega)]
    exact ⟨_, rfl, roundsTo_roundRNE (.inr (by omega)) (by omega) (mul_two_pow_of_eq hv (by unfold scale64; omega))
      (by decide) (by omega)⟩
  · unfold narrowSubnormal
    split_ifs with hk
    · exact ⟨0, append_zero_eq_singleOfRank s, roundsTo_zero_of_lt hv (by decide) hsig.le (by unfold scale64; omega)⟩
    · have hkeq : scale64 a + (30 - ((exp11 a : Int) - 896)).toNat = 925 := by unfold scale64; omega
      have hk30 : 30 ≤ (30 - ((exp11 a : Int) - 896)).toNat := by omega
      generalize (30 - ((exp11 a : Int) - 896)).toNat = k at *
      have hm' : significand64 a ≤ 2 ^ 23 * 2 ^ k := by
        rw [← pow_add]
        exact hsig.le.trans (Nat.pow_le_pow_right two_pos (by omega))
      have hq := roundRNE_le_of_le hm'
      refine ⟨roundRNE (significand64 a) k, append_ofNat31_eq_singleOfRank s (by omega), ?_⟩
      have hround := roundsTo_roundRNE (p := 23) (u := 149) (L := 0x7F800000) (.inl rfl)
        (hm'.trans (Nat.mul_le_mul_right _ (by decide))) (mul_two_pow_of_eq hv (by omega)) (by decide) (by decide)
      rwa [Nat.zero_mul, Nat.zero_add] at hround

end Sys2Proof.Machine
end

section
/-!
PROOFS. The paths of stage 2 (R105 to R114) and the operands that are NaN or infinite (R103, R106, R120).
-/

namespace Sys2Proof.Machine

/-! ## The paths by magnitude -/

section
variable (f : Single)

/-- A bound on the magnitude is a bound on the rank. -/
theorem le_singleValue_rank32_iff {y : ℚ} {r : Nat} (hr : singleValue r = y) : y ≤ singleValue (rank32 f) ↔ r ≤ rank32 f := by
  rw [← hr, singleValue_strictMono.le_iff_le]

theorem singleValue_rank32_lt_iff {y : ℚ} {r : Nat} (hr : singleValue r = y) : singleValue (rank32 f) < y ↔ rank32 f < r := by
  rw [← hr, singleValue_strictMono.lt_iff_lt]

theorem le_rank32_iff (e m : Nat) (hm : m < 2 ^ 23) :
    e * 2 ^ 23 + m ≤ rank32 f ↔ e < exp8 f ∨ (exp8 f = e ∧ m ≤ frac23 f) := by
  have hf := frac23_lt f
  unfold rank32
  omega

theorem val32_of_exp8_le (h : exp8 f ≤ 254) : val32 f = .fin (sign32 f) (singleValue (rank32 f)) :=
  val32_of_rank_lt ((rank32_lt_iff f).mpr (by omega))

theorem singleValue_2pow16 : singleValue (143 * 2 ^ 23 + 0) = 2 ^ 16 := by norm_num [singleValue, gridValue, grid]
theorem singleValue_65520 : singleValue (142 * 2 ^ 23 + 0x7FF000) = 65520 := by norm_num [singleValue, gridValue, grid]
theorem singleValue_2pow_neg25 : singleValue (102 * 2 ^ 23 + 0) = 2 ^ (-25 : ℤ) := by norm_num [singleValue, gridValue, grid]
theorem singleValue_2pow_neg14 : singleValue (113 * 2 ^ 23 + 0) = 2 ^ (-14 : ℤ) := by norm_num [singleValue, gridValue, grid]
theorem singleValue_subnormal_carry : singleValue (112 * 2 ^ 23 + 0x7FE000) = 2 ^ (-14 : ℤ) - 2 ^ (-25 : ℤ) := by
  norm_num [singleValue, gridValue, grid]

end

/-- What is no NaN has a rank up to that of infinity. -/
theorem rank32_le_of_not_nan {f : Single} (h : ¬ (exp8 f = 255 ∧ frac23 f ≠ 0)) : rank32 f ≤ 0x7F800000 := by
  have := exp8_lt f
  have := frac23_lt f
  unfold rank32
  omega

/-- Settles O16: every path places its result below the sign. -/
theorem halfSignOnEveryPath : Obligations.HalfSignOnEveryPath := by
  refine fun f => ⟨rfl, ?_⟩
  by_cases hnan : exp8 f = 255 ∧ frac23 f ≠ 0
  · obtain ⟨he, hf⟩ := hnan
    rw [halfFromSingle_nan he hf]
    exact (congrArg sign16 (halfSign_or_ofNat f (by decide))).trans (sign16_halfOfRank ..)
  · obtain ⟨n, hn, -⟩ := halfFromSingle_roundsTo (rank32_le_of_not_nan hnan)
    rw [hn, sign16_halfOfRank]

/-- Settles O18: rebias and magnitude both say that the exponent field is 143 at least. -/
theorem overflowBeforeRounding : Obligations.OverflowBeforeRounding := by
  refine fun f hfin => ⟨by unfold rebias; omega, ⟨_, val32_of_exp8_le f hfin, ?_⟩, fun h => halfFromSingle_overflow h hfin⟩
  rw [le_singleValue_rank32_iff f singleValue_2pow16, le_rank32_iff f 143 0 (by decide)]
  omega

/-- Settles O19: rebias and magnitude both say that the exponent field is 101 at most. -/
theorem underflowToSignedZero : Obligations.UnderflowToSignedZero := by
  refine ⟨fun f hfin => ⟨by unfold rebias; omega, ⟨_, val32_of_exp8_le f hfin, ?_⟩, halfFromSingle_underflow⟩, ?_, ?_⟩
  · rw [singleValue_rank32_lt_iff f singleValue_2pow_neg25, ← not_le, le_rank32_iff f 102 0 (by decide)]
    omega
  · exact encodes_fp64ToFp16 0x0000000000000000#64
  · exact encodes_fp64ToFp16 0x8000000000000000#64

/-- R111: which mantissas are carried to the smallest normal. -/
theorem roundRNE_mantissa_eq_carry_iff (f : Single) (hlow : 102 ≤ exp8 f) (hhigh : exp8 f ≤ 112) :
    roundRNE (2 ^ 23 + frac23 f) (126 - exp8 f) = 0x400 ↔ exp8 f = 112 ∧ 0xFFE000 ≤ 2 ^ 23 + frac23 f := by
  have hf := frac23_lt f
  obtain h112 | h112 := eq_or_ne (exp8 f) 112
  · rw [h112, roundRNE_eq]
    split_ifs <;> omega
  · have hq := roundRNE_mantissa_le f (k := 126 - exp8 f) (by omega)
    have hpow : 2 ^ (24 - (126 - exp8 f)) ≤ 2 ^ 9 := Nat.pow_le_pow_right two_pos (by omega)
    omega

/-- Settles O20: each clause is one of the lemmas about this path, and the magnitudes are bounds on the rank. -/
theorem subnormalPathKeepsCarry : Obligations.SubnormalPathKeepsCarry := by
  intro f hfin
  have hf := frac23_lt f
  refine ⟨by unfold rebias; omega, ⟨_, val32_of_exp8_le f hfin, ?_⟩, fun hlow hhigh => ?_⟩
  · rw [le_singleValue_rank32_iff f singleValue_2pow_neg25, singleValue_rank32_lt_iff f singleValue_2pow_neg14, ← not_le (b := rank32 f),
      le_rank32_iff f 102 0 (by decide), le_rank32_iff f 113 0 (by decide)]
    omega
  · have hcarry := roundRNE_mantissa_eq_carry_iff f hlow hhigh
    have hq := roundRNE_mantissa_le f (k := 126 - exp8 f) (by omega)
    refine ⟨⟨by unfold rebias; omega, by omega, by omega⟩, halfFromSingle_subnormal hlow hhigh, ?_, hq, hcarry, fun h112 => ?_,
      _, val32_of_exp8_le f hfin, ?_⟩
    · rw [Nat.div_lt_iff_lt_mul (Nat.two_pow_pos _), ← pow_add, Nat.sub_add_cancel (by omega)]
      omega
    · exact hq.trans (Nat.pow_le_pow_right two_pos (show 24 - (126 - exp8 f) ≤ 9 by omega))
    · rw [hcarry, le_singleValue_rank32_iff f singleValue_subnormal_carry, le_rank32_iff f 112 0x7FE000 (by decide)]
      omega

/-- Settles O21: the rank of the result is one sum, which the three clauses read as fields. -/
theorem normalPathRoundsAndCarries : Obligations.NormalPathRoundsAndCarries := by
  intro f hlow hhigh
  have hf := frac23_lt f
  have hle := roundRNE_frac23_le f
  have hcarry : roundRNE (frac23 f) 13 = 0x400 ↔ 0x7FF000 ≤ frac23 f := by
    rw [roundRNE_eq]
    split_ifs <;> omega
  have hresult := halfFromSingle_normal hlow hhigh
  refine ⟨hle, hcarry, fun h => ?_, fun h h141 => ?_, fun h h142 => ?_, _, val32_of_exp8_le f (by omega), ?_, ?_⟩
  · rw [hresult, pack16_eq_halfOfRank _ (by omega)]
  · rw [hresult, pack16_eq_halfOfRank _ (by decide)]
    exact congrArg (halfOfRank _) (by omega)
  · refine (hresult.trans ?_).trans (halfInfinity_eq f).symm
    exact congrArg (halfOfRank _) (by omega)
  · rw [singleValue_rank32_lt_iff f singleValue_2pow16, ← not_le, le_rank32_iff f 143 0 (by decide)]
    omega
  · rw [hcarry, le_singleValue_rank32_iff f singleValue_65520, le_rank32_iff f 142 0x7FF000 (by decide)]
    omega

/-! ## Operands that are NaN or infinite -/

/-- R103: the fraction that a NaN narrows to. -/
theorem narrow_nan {a : Double} (he : exp11 a = 2047) (hf : frac52 a ≠ 0) :
    ∃ f, narrow a = pack32 (sign64 a) 255 f ∧ 2 ^ 22 ≤ f ∧ f < 2 ^ 23 := by
  have htop := BitVec.isLt (a.extractLsb' 29 22)
  refine ⟨(1#1 ++ a.extractLsb' 29 22).toNat, ?_, ?_, BitVec.isLt _⟩
  · rw [narrow, if_pos he, if_pos hf, pack32, BitVec.ofNat_toNat, BitVec.setWidth_eq]
  · rw [BitVec.toNat_append, Nat.shiftLeft_eq, Nat.mul_comm, ← Nat.two_pow_add_eq_or_of_lt htop]
    simp

theorem narrow_infinity {a : Double} (he : exp11 a = 2047) (hf : frac52 a = 0) : narrow a = pack32 (sign64 a) 255 0 := by
  rw [narrow, if_pos he, if_neg (not_not.mpr hf)]

theorem fp64ToFp16_nan {a : Double} (he : exp11 a = 2047) (hf : frac52 a ≠ 0) : fp64ToFp16 a = halfOfRank (sign64 a) 0x7E00 := by
  obtain ⟨f, hnarrow, hlow, hhigh⟩ := narrow_nan he hf
  rw [fp64ToFp16, hnarrow, halfFromSingle_nan (exp8_pack32 _ _ _ (by decide)) (by rw [frac23_pack32 _ _ _ hhigh]; omega)]
  refine (halfSign_or_ofNat _ (by decide)).trans ?_
  rw [sign32_pack32]

theorem fp64ToFp16_infinity {a : Double} (he : exp11 a = 2047) (hf : frac52 a = 0) :
    fp64ToFp16 a = halfOfRank (sign64 a) 0x7C00 := by
  rw [fp64ToFp16, narrow_infinity he hf, halfFromSingle_infinity (exp8_pack32 _ _ _ (by decide)) (frac23_pack32 _ _ _ (by decide)),
    halfInfinity_eq, sign32_pack32]

/-- Settles O17: stage 2 reads only that the fraction of a NaN is not 0, and Narrow keeps it so. -/
theorem encodeNaNAndInfinity : Obligations.EncodeNaNAndInfinity := by
  refine ⟨fun f he => ⟨halfFromSingle_nan he, halfFromSingle_infinity he⟩, fun a he => ⟨fun hf => ?_, fun hf => ?_⟩⟩
  · have hnan := encodes_fp64ToFp16 a
    rw [fp64ToFp16_nan he hf] at hnan
    obtain hs | hs := BitVec.eq_zero_or_eq_one (sign64 a) <;> rw [hs] at hnan ⊢ <;> exact hnan
  · have hinf := encodes_fp64ToFp16 a
    rw [fp64ToFp16_infinity he hf] at hinf
    obtain hs | hs := BitVec.eq_zero_or_eq_one (sign64 a) <;> rw [hs] at hinf ⊢ <;> exact hinf

theorem isNaN64_iff (a : Double) : isNaN64 a = true ↔ exp11 a = 2047 ∧ frac52 a ≠ 0 := by
  simp [isNaN64]

/-- What narrows to no NaN has a rank up to that of infinity. -/
theorem not_nan_singleOfRank (s : BitVec 1) {r : Nat} (hr : r ≤ 0x7F800000) :
    ¬ (exp8 (singleOfRank s r) = 0xFF ∧ frac23 (singleOfRank s r) ≠ 0) := by
  have hrank := rank32_singleOfRank s (n := r) (by omega)
  unfold rank32 at hrank
  omega

/-- Settles O23: a finite operand narrows to a rank up to that of infinity, which no NaN has. -/
theorem narrowKeepsNaN : Obligations.NarrowKeepsNaN := by
  intro a
  rw [isNaN64_iff]
  by_cases hexp : exp11 a = 2047
  · by_cases hfrac : frac52 a = 0
    · rw [narrow_infinity hexp hfrac, frac23_pack32 _ _ _ (by decide)]
      simp [hfrac]
    · obtain ⟨f, hnarrow, hlow, hhigh⟩ := narrow_nan hexp hfrac
      rw [hnarrow, sign32_pack32, exp8_pack32 _ _ _ (by decide), frac23_pack32 _ _ _ hhigh]
      exact ⟨⟨fun _ => ⟨rfl, by omega⟩, fun _ => ⟨hexp, hfrac⟩⟩, fun _ => ⟨rfl, hlow⟩⟩
  · obtain ⟨r, hnarrow, hround⟩ := narrow_roundsTo (val64_of_finite hexp)
    have hnot := not_nan_singleOfRank (sign64 a) hround.1
    rw [hnarrow]
    exact ⟨⟨fun h => absurd h.1 hexp, fun h => absurd h hnot⟩, fun h => absurd h.1 hexp⟩

end Sys2Proof.Machine
end

section
/-!
PROOFS. ENCODE as two roundings, one after the other (R100, R102, R115 to R122).
-/

namespace Sys2Proof.Machine

/-! ## Nearest patterns -/

theorem nearestHalf_of_roundsTo {s : BitVec 1} {v : ℚ} {n : Nat} (h : RoundsTo halfValue 0x7C00 v n) (hn : n < 0x7C00) :
    NearestHalf s v (halfOfRank s n) (halfValue n) := by
  have hrank := rank16_halfOfRank s (n := n) (by omega)
  refine ⟨val16_halfOfRank s hn, fun h' y' hy' => ?_⟩
  obtain ⟨hlt, -, rfl⟩ := (val16_eq_fin_iff h' s y').mp hy'
  obtain ⟨hle, htie⟩ := h.nearest halfValue_strictMono hlt.le
  refine ⟨hle, fun heq hne => ?_⟩
  have heven := htie heq hne
  unfold rank16 at hrank
  omega

theorem nearestSingle_of_roundsTo {s : BitVec 1} {v : ℚ} {r : Nat} (h : RoundsTo singleValue 0x7F800000 v r) (hr : r < 0x7F800000) :
    NearestSingle s v (singleOfRank s r) (singleValue r) := by
  have hrank := rank32_singleOfRank s (n := r) (by omega)
  refine ⟨val32_singleOfRank s hr, fun f' y' hy' => ?_⟩
  obtain ⟨hlt, -, rfl⟩ := (val32_eq_fin_iff f' s y').mp hy'
  obtain ⟨hle, htie⟩ := h.nearest singleValue_strictMono hlt.le
  refine ⟨hle, fun heq hne => ?_⟩
  have heven := htie heq hne
  unfold rank32 at hrank
  omega

/-- Settles O22: the last midpoint, between the largest finite pattern and 2^128, is 2^128 - 2^103. -/
theorem narrowIsNearestSingle : Obligations.NarrowIsNearestSingle := by
  intro a s v hv
  obtain ⟨r, hnarrow, hround⟩ := narrow_roundsTo hv
  have hlast : r ≤ 0x7F800000 := hround.1
  have hmid : singleValue 0x7F7FFFFF + singleValue (0x7F7FFFFF + 1) = 2 * (2 ^ 128 - 2 ^ 103) := by
    norm_num [singleValue, gridValue, grid]
  have hover := hround.lt_iff_of_odd (by decide) (by decide) hmid
  rw [hnarrow]
  refine ⟨fun hlow => ?_, fun hhigh => ⟨_, nearestSingle_of_roundsTo hround ?_⟩⟩
  · have := hover.mpr hlow
    rw [pack32_eq_singleOfRank s (by decide)]
    exact congrArg (singleOfRank s) (by omega)
  · have := mt hover.mp (not_le.mpr hhigh)
    omega

/-! ## The two roundings -/

/-- Rounded to binary32 and then to binary16, the number `v` gets the rank `n`. -/
def RoundsTwice (v : ℚ) (n : Nat) : Prop :=
  ∃ r, RoundsTo singleValue 0x7F800000 v r ∧ RoundsTo halfValue 0x7C00 (singleValue r) n

/-- What the two roundings answer for a finite operand. -/
theorem encode_roundings {a : Double} {s : BitVec 1} {v : ℚ} (h : val64 a = .fin s v) :
    ∃ r n, narrow a = singleOfRank s r ∧ fp64ToFp16 a = halfOfRank s n ∧
      RoundsTo singleValue 0x7F800000 v r ∧ RoundsTo halfValue 0x7C00 (singleValue r) n := by
  obtain ⟨r, hnarrow, hsingle⟩ := narrow_roundsTo h
  have hlast : r ≤ 0x7F800000 := hsingle.1
  have hrank := rank32_singleOfRank s (n := r) (by omega)
  obtain ⟨n, hresult, hhalf⟩ := halfFromSingle_roundsTo (f := singleOfRank s r) (by omega)
  rw [sign32_singleOfRank] at hresult
  rw [hrank] at hhalf
  exact ⟨r, n, hnarrow, by rw [fp64ToFp16, hnarrow, hresult], hsingle, hhalf⟩

theorem encode_roundsTwice {a : Double} {s : BitVec 1} {v : ℚ} (h : val64 a = .fin s v) :
    ∃ n, Encodes a (halfOfRank s n) ∧ RoundsTwice v n := by
  obtain ⟨r, n, -, hresult, hsingle, hhalf⟩ := encode_roundings h
  exact ⟨n, hresult ▸ encodes_fp64ToFp16 a, r, hsingle, hhalf⟩

theorem RoundsTwice.mono {v w : ℚ} {n m : Nat} (hn : RoundsTwice v n) (hm : RoundsTwice w m) (hvw : v ≤ w) : n ≤ m := by
  obtain ⟨r, hr, hrn⟩ := hn
  obtain ⟨t, ht, htm⟩ := hm
  exact hrn.mono htm (singleValue_strictMono.monotone (hr.mono ht hvw))

theorem RoundsTwice.unique {v : ℚ} {n m : Nat} (hn : RoundsTwice v n) (hm : RoundsTwice v m) : n = m :=
  le_antisymm (hn.mono hm le_rfl) (hm.mono hn le_rfl)

/-- Every integer of 24 bits, times a power of two within the range, is the magnitude of a binary32 pattern. -/
theorem exists_singleValue_eq {m : Nat} (j : Nat) (hm : m < 2 ^ 24) : ∃ r, singleValue r = (m : ℚ) * 2 ^ j / 2 ^ 149 := by
  obtain ⟨r, hr⟩ := exists_grid_eq (p := 23) j hm
  exact ⟨r, by rw [singleValue, gridValue, hr, cast_mul_two_pow]⟩

theorem exists_singleValue_eq_halfValue (n : Nat) : ∃ r, singleValue r = halfValue n := by
  obtain ⟨e, q, rfl, hlow, hhigh⟩ := exists_binade 10 n
  obtain ⟨r, hr⟩ := exists_singleValue_eq (e + 125) (show q < 2 ^ 24 by omega)
  refine ⟨r, ?_⟩
  rw [hr, halfValue, gridValue, grid_binade hlow hhigh.le, cast_mul_two_pow, pow_add, div_eq_div_iff (by positivity) (by positivity)]
  ring

/-- Binary32 holds the midpoint of every two neighbouring halves. -/
theorem exists_singleValue_eq_midpoint (n : Nat) : ∃ r, 2 * singleValue r = halfValue n + halfValue (n + 1) := by
  obtain ⟨e, q, rfl, hlow, hhigh⟩ := exists_binade 10 n
  obtain ⟨r, hr⟩ := exists_singleValue_eq (e + 124) (show 2 * q + 1 < 2 ^ 24 by omega)
  refine ⟨r, ?_⟩
  rw [hr, halfValue, gridValue, gridValue, grid_succ hlow hhigh, grid_binade hlow hhigh.le]
  push_cast
  ring

theorem halfValue_zero : halfValue 0 = 0 := by norm_num [halfValue, gridValue, grid]
theorem halfValue_infinity : halfValue 0x7C00 = 2 ^ 16 := by norm_num [halfValue, gridValue, grid]
theorem singleValue_infinity : singleValue 0x7F800000 = 2 ^ 128 := by norm_num [singleValue, gridValue, grid]

/-- The magnitudes up to 2^16 are within the range of binary32. -/
theorem rank_le_of_singleValue_le {r : Nat} (h : singleValue r ≤ 2 ^ 16) : r ≤ 0x7F800000 := by
  rw [← singleValue_strictMono.le_iff_le, singleValue_infinity]
  exact h.trans (by norm_num)

theorem halfValue_le {n : Nat} (h : n ≤ 0x7C00) : halfValue n ≤ 2 ^ 16 := by
  rw [← halfValue_infinity]
  exact halfValue_strictMono.monotone h

/-- R115: halves go through both roundings unchanged. -/
theorem roundsTwice_halfValue {n : Nat} (h : n ≤ 0x7C00) : RoundsTwice (halfValue n) n := by
  obtain ⟨r, hr⟩ := exists_singleValue_eq_halfValue n
  have hle := rank_le_of_singleValue_le (hr.le.trans (halfValue_le h))
  refine ⟨r, ?_, ?_⟩
  · rw [← hr]
    exact roundsTo_self singleValue_strictMono hle
  · rw [hr]
    exact roundsTo_self halfValue_strictMono h

theorem RoundsTwice.le_of_le_halfValue {v : ℚ} {n k : Nat} (hn : RoundsTwice v n) (hk : k ≤ 0x7C00) (h : v ≤ halfValue k) : n ≤ k :=
  hn.mono (roundsTwice_halfValue hk) h

theorem RoundsTwice.le_of_halfValue_le {v : ℚ} {n k : Nat} (hn : RoundsTwice v n) (hk : k ≤ 0x7C00) (h : halfValue k ≤ v) : k ≤ n :=
  (roundsTwice_halfValue hk).mono hn h

theorem RoundsTwice.le_infinity {v : ℚ} {n : Nat} (hn : RoundsTwice v n) : n ≤ 0x7C00 := by
  obtain ⟨r, -, hround⟩ := hn
  exact hround.1

theorem toNat_halfOfRank (s : BitVec 1) {n : Nat} (h : n < 2 ^ 15) : (halfOfRank s n).toNat = s.toNat * 2 ^ 15 + n := by
  rw [halfOfRank, pack16, toNat_append3]
  simp only [BitVec.toNat_ofNat]
  omega

/-- Settles O31: both roundings are monotone (R119). -/
theorem encodeIsMonotone : Obligations.EncodeIsMonotone := by
  intro a b s v w hv hw hle
  obtain ⟨n, ha, hn⟩ := encode_roundsTwice hv
  obtain ⟨m, hb, hm⟩ := encode_roundsTwice hw
  have hnm := hn.mono hm hle
  have hmax := hm.le_infinity
  refine ⟨_, _, ha, hb, ?_⟩
  rw [toNat_halfOfRank s (by omega), toNat_halfOfRank s (by omega)]
  omega

theorem val64_eq_inf {a : Double} {s : BitVec 1} (h : val64 a = .inf s) : exp11 a = 2047 ∧ frac52 a = 0 ∧ sign64 a = s := by
  unfold val64 at h
  split_ifs at h with h0 h2047 hfrac
  exact ⟨h2047, hfrac, by injection h⟩

/-- Settles O26: both roundings leave a half's magnitude unchanged, and rank and sign make up the pattern. -/
theorem encodeIsExactOnHalves : Obligations.EncodeIsExactOnHalves := by
  intro a h hnan hval
  by_cases hlt : rank16 h < 0x7C00
  · rw [val16_of_rank_lt hlt] at hval
    obtain ⟨n, hencodes, hn⟩ := encode_roundsTwice hval
    rw [hn.unique (roundsTwice_halfValue hlt.le), halfOfRank_rank16] at hencodes
    exact hencodes
  · have hexp : exp5 h = 31 := not_not.mp fun hne => hlt ((rank16_lt_iff h).mpr hne)
    have hfrac : frac10 h = 0 := by simpa [isNaN16, hexp] using hnan
    rw [val16, if_neg (by omega), if_pos hexp, if_pos hfrac] at hval
    obtain ⟨he, hf, hs⟩ := val64_eq_inf hval
    have hinf := encodes_fp64ToFp16 a
    rw [fp64ToFp16_infinity he hf, hs, ← show rank16 h = 0x7C00 by unfold rank16; omega, halfOfRank_rank16] at hinf
    exact hinf

/-! ## The thresholds of the result -/

/-- The midpoint of 65504, the largest finite half, and 2^16. -/
theorem RoundsTo.half_overflow_iff {v : ℚ} {n : Nat} (h : RoundsTo halfValue 0x7C00 v n) : 0x7BFF < n ↔ 65520 ≤ v :=
  h.lt_iff_of_odd (by decide) (by decide) (by norm_num [halfValue, gridValue, grid])

theorem RoundsTo.lt_infinity {v : ℚ} {n : Nat} (h : RoundsTo halfValue 0x7C00 v n) (hv : v < 65520) : n < 0x7C00 := by
  have := mt h.half_overflow_iff.mp (not_le.mpr hv)
  omega

/-- R116: 65520 - 2^-9 is the midpoint of 65520 and the binary32 value below it. -/
theorem RoundsTwice.overflow_iff {v : ℚ} {n : Nat} (h : RoundsTwice v n) : 0x7BFF < n ↔ 65520 - 2 ^ (-9 : ℤ) ≤ v := by
  obtain ⟨r, hsingle, hhalf⟩ := h
  have hmid : singleValue 0x477FEFFF + singleValue (0x477FEFFF + 1) = 2 * (65520 - 2 ^ (-9 : ℤ)) := by
    norm_num [singleValue, gridValue, grid]
  rw [hhalf.half_overflow_iff, ← hsingle.lt_iff_of_odd (by decide) (by decide) hmid, ← singleValue_65520,
    singleValue_strictMono.le_iff_le]
  exact Iff.rfl

/-- R117: half of the least half is rounded to zero, and 2^-25 + 2^-49 is the midpoint of it and the next binary32 value. -/
theorem RoundsTwice.underflow_iff {v : ℚ} {n : Nat} (h : RoundsTwice v n) : 0 < n ↔ 2 ^ (-25 : ℤ) + 2 ^ (-49 : ℤ) < v := by
  obtain ⟨r, hsingle, hhalf⟩ := h
  have hmid : singleValue 0x33000000 + singleValue (0x33000000 + 1) = 2 * (2 ^ (-25 : ℤ) + 2 ^ (-49 : ℤ)) := by
    norm_num [singleValue, gridValue, grid]
  have hmid0 : halfValue 0 + halfValue (0 + 1) = 2 * 2 ^ (-25 : ℤ) := by norm_num [halfValue, gridValue, grid]
  rw [hhalf.lt_iff_of_even (by decide) (by decide) hmid0, ← hsingle.lt_iff_of_even (by decide) (by decide) hmid,
    ← singleValue_2pow_neg25, singleValue_strictMono.lt_iff_lt]
  exact Iff.rfl

/-- Settles O27: 65504 is a half, so from there up only it and infinity are left. -/
theorem overflowThreshold : Obligations.OverflowThreshold := by
  intro a s v hv
  obtain ⟨n, hencodes, hn⟩ := encode_roundsTwice hv
  have hmax := hn.le_infinity
  refine ⟨fun hlow => ?_, fun hlow hhigh => ?_⟩
  · have := hn.overflow_iff.mpr hlow
    obtain rfl : n = 0x7C00 := by omega
    exact hencodes
  · have h65504 : halfValue 0x7BFF = 65504 := by norm_num [halfValue, gridValue, grid]
    have hle := mt hn.overflow_iff.mp (not_le.mpr hhigh)
    have hge := hn.le_of_halfValue_le (by decide) (h65504.le.trans hlow)
    obtain rfl : n = 0x7BFF := by omega
    exact hencodes

/-- Settles O28: 2^-24 is a half, so up to there only it and zero are left. -/
theorem underflowThreshold : Obligations.UnderflowThreshold := by
  intro a s v hv
  obtain ⟨n, hencodes, hn⟩ := encode_roundsTwice hv
  refine ⟨fun hhigh => ?_, fun hlow hhigh => ?_⟩
  · have := mt hn.underflow_iff.mp (not_lt.mpr hhigh)
    obtain rfl : n = 0 := by omega
    exact hencodes
  · have hleast : halfValue 1 = 2 ^ (-24 : ℤ) := by norm_num [halfValue, gridValue, grid]
    have hge := hn.underflow_iff.mpr hlow
    have hle := hn.le_of_le_halfValue (by decide) (hhigh.trans hleast.ge)
    obtain rfl : n = 1 := by omega
    exact hencodes

/-! ## One rounding instead of two -/

/-- Settles O25: Narrow changes nothing, so stage 2 is the only rounding (R118). -/
theorem encodeIsNearestOnSingles : Obligations.EncodeIsNearestOnSingles := by
  intro a f s v hv hf
  obtain ⟨n, hencodes, r, hsingle, hhalf⟩ := encode_roundsTwice hv
  obtain ⟨hlt, -, hvalue⟩ := (val32_eq_fin_iff f s v).mp hf
  rw [hsingle.eq_of_eq singleValue_strictMono hlt.le hvalue.symm, hvalue] at hhalf
  have hmax := hhalf.1
  refine ⟨fun hlow => ?_, fun hhigh => ?_⟩
  · have := hhalf.half_overflow_iff.mpr hlow
    obtain rfl : n = 0x7C00 := by omega
    exact hencodes
  · exact ⟨_, _, hencodes, nearestHalf_of_roundsTo hhalf (hhalf.lt_infinity hhigh)⟩

/-- A midpoint of two halves tells a number from its binary32 value only if that value is the midpoint and the number is not. -/
theorem eq_midpoint_of_passes_differ {v : ℚ} {r k : Nat} (h : RoundsTo singleValue 0x7F800000 v r) (hk : k < 0x7C00)
    (hdiffer : PassesMidpoint halfValue (singleValue r) k ↔ ¬ PassesMidpoint halfValue v k) :
    2 * singleValue r = halfValue k + halfValue (k + 1) ∧ singleValue r ≠ v := by
  have hne : singleValue r ≠ v := fun heq => iff_not_self (heq ▸ hdiffer)
  obtain ⟨t, ht⟩ := exists_singleValue_eq_midpoint k
  have htmax : t ≤ 0x7F800000 := by
    apply rank_le_of_singleValue_le
    have := halfValue_le (n := k) (by omega)
    have := halfValue_le (n := k + 1) hk
    linarith
  have hself := roundsTo_self singleValue_strictMono htmax
  obtain hlt | heq | hgt := lt_trichotomy v (singleValue t)
  · have hwt := singleValue_strictMono.monotone (h.mono hself hlt.le)
    have hfail : ¬ PassesMidpoint halfValue v k := fun hpass => by linarith [hpass.le]
    have hle := (hdiffer.mpr hfail).le
    exact ⟨by linarith, hne⟩
  · exact absurd (by rw [h.eq_of_eq singleValue_strictMono htmax heq, heq]) hne
  · have hwt := singleValue_strictMono.monotone (hself.mono h hgt.le)
    have hpass : PassesMidpoint halfValue v k := .inl (by linarith)
    have hle := le_of_not_passesMidpoint fun h => hdiffer.mp h hpass
    exact ⟨by linarith, hne⟩

/-- The result is nearest to the operand, or Narrow landed on the midpoint of it and a neighbour that is nearer. -/
theorem nearest_or_midpoint {v : ℚ} {r n : Nat} (hsingle : RoundsTo singleValue 0x7F800000 v r)
    (hhalf : RoundsTo halfValue 0x7C00 (singleValue r) n) (hw : singleValue r < 65520) :
    RoundsTo halfValue 0x7C00 v n ∨
      (singleValue r ≠ v ∧ ∃ n' < 0x7C00, halfValue n' ≠ halfValue n ∧ 2 * singleValue r = halfValue n + halfValue n' ∧
        |halfValue n' - v| < |halfValue n - v|) := by
  have hn := hhalf.lt_infinity hw
  by_cases hbelow : ∀ k, k + 1 = n → PassesMidpoint halfValue v k
  · by_cases habove : PassesMidpoint halfValue v n
    · have hfail : ¬ PassesMidpoint halfValue (singleValue r) n := fun h => lt_irrefl n ((hhalf.2 n hn).mpr h)
      obtain ⟨hmid, hne⟩ := eq_midpoint_of_passes_differ hsingle hn (iff_of_false hfail (not_not.mpr habove))
      have hstep := halfValue_strictMono (Nat.lt_add_one n)
      have hwv : singleValue r < v := lt_of_le_of_ne (by linarith [habove.le]) hne
      have hn' : n + 1 < 0x7C00 := by
        by_contra hlast
        obtain rfl : n = 0x7BFF := by omega
        have : halfValue 0x7BFF + halfValue (0x7BFF + 1) = 2 * 65520 := by norm_num [halfValue, gridValue, grid]
        linarith
      refine .inr ⟨hne, n + 1, hn', hstep.ne', hmid, ?_⟩
      rw [abs_of_neg (show halfValue n - v < 0 by linarith)]
      exact abs_lt.mpr ⟨by linarith, by linarith⟩
    · exact .inl (roundsTo_of_adjacent halfValue_strictMono hn.le hbelow fun _ => habove)
  · push Not at hbelow
    obtain ⟨k, rfl, hfail⟩ := hbelow
    have hpass := (hhalf.2 k (by omega)).mp (Nat.lt_add_one k)
    obtain ⟨hmid, hne⟩ := eq_midpoint_of_passes_differ hsingle (k := k) (by omega) (iff_of_true hpass hfail)
    have hstep := halfValue_strictMono (Nat.lt_add_one k)
    have hwv : v < singleValue r := lt_of_le_of_ne (by linarith [le_of_not_passesMidpoint hfail]) hne.symm
    refine .inr ⟨hne, k, by omega, hstep.ne, by rw [hmid, add_comm], ?_⟩
    rw [abs_of_pos (show 0 < halfValue (k + 1) - v by linarith)]
    exact abs_lt.mpr ⟨by linarith, by linarith⟩

/-- R119's operand: 1 + 2^-11 + 2^-40, which Narrow brings to the midpoint of 1 and 1 + 2^-10. -/
theorem val64_double_rounding : val64 0x3FF0020000001000#64 = .fin 0#1 (1 + 2 ^ (-11 : ℤ) + 2 ^ (-40 : ℤ)) := by
  have hsig : significand64 0x3FF0020000001000#64 = 0x10020000001000 := by decide
  have hscale : scale64 0x3FF0020000001000#64 = 1022 := by decide
  have hsign : sign64 0x3FF0020000001000#64 = 0#1 := by decide
  rw [val64_of_finite (by decide), hsig, hscale, hsign]
  norm_num

/-- Settles O29: `nearest_or_midpoint` on the operand, then an operand whose two roundings answer 1 instead of 1 + 2^-10. -/
theorem doubleRoundingOnlyAtMidpoints : Obligations.DoubleRoundingOnlyAtMidpoints := by
  refine ⟨fun a s v w hv hw hlt => ?_, 0x3FF0020000001000#64, _, val64_double_rounding, ?_, fun hnearest => ?_⟩
  · obtain ⟨r, n, hnarrow, hresult, hsingle, hhalf⟩ := encode_roundings hv
    have hlast : r ≤ 0x7F800000 := hsingle.1
    rw [hnarrow, val32_eq_fin_iff, rank32_singleOfRank s (by omega)] at hw
    obtain ⟨-, -, rfl⟩ := hw
    have hfinite := hhalf.lt_infinity hlt
    refine ⟨_, _, hresult ▸ encodes_fp64ToFp16 a, val16_halfOfRank s hfinite, ?_⟩
    obtain hnearest | ⟨hne, n', hn', hother, hmid, hcloser⟩ := nearest_or_midpoint hsingle hhalf hlt
    · exact .inl (nearestHalf_of_roundsTo hnearest hfinite)
    · exact .inr ⟨hne, _, _, val16_halfOfRank s hn', hother, hmid, hcloser⟩
  · exact encodes_fp64ToFp16 0x3FF0020000001000#64
  · have hnext : halfValue 0x3C01 = 1 + 2 ^ (-10 : ℤ) := by norm_num [halfValue, gridValue, grid]
    have hle := (hnearest.2 _ _ (val16_halfOfRank 0#1 (n := 0x3C01) (by decide))).1
    rw [hnext] at hle
    norm_num at hle

/-! ## The error bound -/

/-- Both roundings together answer one of the two halves that enclose the operand. -/
theorem RoundsTwice.enclosed {v : ℚ} {n : Nat} (h : RoundsTwice v n) (hv : 0 ≤ v) (hn : n < 0x7C00) :
    ∃ k, halfValue k ≤ v ∧ v ≤ halfValue (k + 1) ∧ |halfValue n - v| ≤ halfValue (k + 1) - halfValue k := by
  obtain hle | hgt := le_or_gt (halfValue n) v
  · have hupper : v ≤ halfValue (n + 1) := by
      by_contra hlt
      have := h.le_of_halfValue_le hn (not_le.mp hlt).le
      omega
    exact ⟨n, hle, hupper, abs_le.mpr ⟨by linarith, by linarith⟩⟩
  · have hpos : n ≠ 0 := by
      rintro rfl
      exact absurd hgt (not_lt.mpr (halfValue_zero.trans_le hv))
    obtain ⟨k, rfl⟩ := Nat.exists_eq_add_one_of_ne_zero hpos
    have hlower : halfValue k ≤ v := by
      by_contra hlt
      have := h.le_of_le_halfValue (by omega) (not_le.mp hlt).le
      omega
    exact ⟨k, hlower, hgt.le, abs_le.mpr ⟨by linarith, by linarith⟩⟩

/-- The step between neighbouring halves is one unit in the last place of the lower's binade (R122). -/
theorem halfValue_step_le {k : Nat} {E : ℤ} (h : halfValue k < 2 ^ (E + 1)) :
    halfValue (k + 1) - halfValue k ≤ 2 ^ (max E (-14) - 10) := by
  obtain ⟨e, q, rfl, hlow, hhigh⟩ := exists_binade 10 k
  have hstep : halfValue (e * 2 ^ 10 + q + 1) - halfValue (e * 2 ^ 10 + q) = 2 ^ ((e : ℤ) - 24) := by
    rw [halfValue, gridValue, gridValue, grid_succ hlow hhigh, zpow_sub₀ two_ne_zero]
    push_cast
    rw [zpow_natCast]
    ring
  rw [hstep]
  apply zpow_le_zpow_right₀ one_le_two
  obtain rfl | hbig := hlow
  · omega
  · have hvalue : (2 : ℚ) ^ ((e : ℤ) - 14) ≤ halfValue (e * 2 ^ 10 + q) := by
      rw [halfValue, gridValue, grid_binade (.inr hbig) hhigh.le, le_div_iff₀ (by positivity)]
      calc (2 : ℚ) ^ ((e : ℤ) - 14) * 2 ^ 24 = 2 ^ 10 * 2 ^ e := by
            rw [zpow_sub₀ two_ne_zero, zpow_natCast]
            ring
        _ ≤ ((q * 2 ^ e : Nat) : ℚ) := by exact_mod_cast Nat.mul_le_mul_right _ hbig
    have := (zpow_lt_zpow_iff_right₀ (one_lt_two (α := ℚ))).mp (hvalue.trans_lt h)
    omega

/-- Settles O30: operand and result lie between the same two neighbouring halves, one unit in the last place apart. -/
theorem encodeErrorBound : Obligations.EncodeErrorBound := by
  intro a s v hv hhigh
  obtain ⟨n, hencodes, hn⟩ := encode_roundsTwice hv
  have hfinite : n < 0x7C00 := by
    have := mt hn.overflow_iff.mp (not_le.mpr hhigh)
    omega
  refine ⟨_, _, hencodes, val16_halfOfRank s hfinite, fun h0 => ?_, fun E hlow hup => ?_⟩
  · have hle := hn.le_of_le_halfValue (Nat.zero_le _) (h0.le.trans halfValue_zero.ge)
    rw [Nat.le_zero.mp hle, halfValue_zero]
  · obtain ⟨k, hlower, -, herror⟩ := hn.enclosed ((zpow_nonneg zero_le_two E).trans hlow) hfinite
    exact herror.trans (halfValue_step_le (hlower.trans_lt hup))

/-! ## The sign -/

/-- The rank of ENCODE's result is decided by the exponent and the fraction of the operand. -/
theorem fp64ToFp16_eq_halfOfRank (a : Double) :
    ∃ n < 2 ^ 15, ∀ b : Double, exp11 b = exp11 a → frac52 b = frac52 a → fp64ToFp16 b = halfOfRank (sign64 b) n := by
  by_cases hexp : exp11 a = 2047
  · by_cases hfrac : frac52 a = 0
    · exact ⟨0x7C00, by decide, fun b he hf => fp64ToFp16_infinity (he.trans hexp) (hf.trans hfrac)⟩
    · exact ⟨0x7E00, by decide, fun b he hf => fp64ToFp16_nan (he.trans hexp) (hf ▸ hfrac)⟩
  · obtain ⟨r, n, -, -, hsingle, hhalf⟩ := encode_roundings (val64_of_finite hexp)
    have hmax : n ≤ 0x7C00 := hhalf.1
    refine ⟨n, by omega, fun b he hf => ?_⟩
    have hvalue := val64_of_finite (he.trans_ne hexp)
    have hsig : significand64 b = significand64 a := by rw [significand64, significand64, he, hf]
    have hscale : scale64 b = scale64 a := by rw [scale64, scale64, he]
    rw [hsig, hscale] at hvalue
    obtain ⟨t, m, -, hresult, hsingle', hhalf'⟩ := encode_roundings hvalue
    rw [hresult, RoundsTwice.unique ⟨t, hsingle', hhalf'⟩ ⟨r, hsingle, hhalf⟩]

theorem sign64_flip (a : Double) : sign64 (a ^^^ 0x8000000000000000#64) = sign64 a ^^^ 1#1 := BitVec.extractLsb'_xor
theorem exp11_flip (a : Double) : exp11 (a ^^^ 0x8000000000000000#64) = exp11 a := by
  rw [exp11, BitVec.extractLsb'_xor]
  exact congrArg BitVec.toNat (BitVec.xor_zero ..)
theorem frac52_flip (a : Double) : frac52 (a ^^^ 0x8000000000000000#64) = frac52 a := by
  rw [frac52, BitVec.extractLsb'_xor]
  exact congrArg BitVec.toNat (BitVec.xor_zero ..)

theorem halfOfRank_flip (s : BitVec 1) (n : Nat) : halfOfRank s n ^^^ 0x8000#16 = halfOfRank (s ^^^ 1#1) n := by
  have htop : 0x8000#16 = 1#1 ++ 0#5 ++ 0#10 := rfl
  rw [halfOfRank, pack16, htop, BitVec.xor_append, BitVec.xor_append, BitVec.xor_zero, BitVec.xor_zero]
  rfl

/-- Settles O24: the operand with its sign inverted has the same exponent and fraction, so the same rank. -/
theorem encodeSignSymmetry : Obligations.EncodeSignSymmetry := by
  intro a
  obtain ⟨n, hn, hresult⟩ := fp64ToFp16_eq_halfOfRank a
  have hflip := hresult _ (exp11_flip a) (frac52_flip a)
  refine ⟨halfOfRank (sign64 a) n, ?_, sign16_halfOfRank .., ?_⟩
  · exact hresult a rfl rfl ▸ encodes_fp64ToFp16 a
  · rw [halfOfRank_flip, ← sign64_flip, ← hflip]
    exact encodes_fp64ToFp16 _

end Sys2Proof.Machine
end

section
/-!
PROOFS. DECODE (R140 to R152): the result of each class of half patterns as its three binary64 fields, then its value. That DECODE is
exact carries the rest: ENCODE is exact on halves, so it undoes DECODE, and what can be undone is injective.
-/

namespace Sys2Proof.Machine

/-- The transaction's result, named by an equation about the unit. -/
theorem decodes_of_eq {h : Half} {d : Double} (heq : fp16ToFp64 h = d) : Decodes h d := heq ▸ decodes_fp16ToFp64 h

/-! ## The result of each class (R142 to R148) -/

section
variable {h : Half}

theorem fp16ToFp64_zero (he : exp5 h = 0) (hf : frac10 h = 0) : fp16ToFp64 h = sign16 h ++ 0#63 := by
  rw [fp16ToFp64, if_pos he, if_pos hf]

theorem fp16ToFp64_subnormal {p : Nat} (he : exp5 h = 0) (hlow : 2 ^ p ≤ frac10 h) (hhigh : frac10 h < 2 ^ (p + 1)) :
    fp16ToFp64 h = pack64 (sign16 h) (p + 999) ((frac10 h - 2 ^ p) <<< (52 - p)) := by
  have hf : frac10 h ≠ 0 := (Nat.two_pow_pos p).trans_le hlow |>.ne'
  have hp : msb (frac10 h) = p := (Nat.log2_eq_iff hf).mpr ⟨hlow, hhigh⟩
  rw [fp16ToFp64, if_pos he, if_neg hf, hp]

theorem fp16ToFp64_normal (hlow : 1 ≤ exp5 h) (hhigh : exp5 h ≤ 30) :
    fp16ToFp64 h = pack64 (sign16 h) (exp5 h + 1008) (frac10 h * 2 ^ 42) := by
  rw [fp16ToFp64, if_neg (by omega), if_neg (by omega), Nat.shiftLeft_eq]

theorem fp16ToFp64_infinity (he : exp5 h = 31) (hf : frac10 h = 0) : fp16ToFp64 h = pack64 (sign16 h) 2047 0 := by
  rw [fp16ToFp64, if_neg (by omega), if_pos he, if_pos hf]

theorem isNaN16_iff (h : Half) : isNaN16 h = true ↔ exp5 h = 31 ∧ frac10 h ≠ 0 := by
  simp [isNaN16]

theorem fp16ToFp64_nan (hnan : isNaN16 h = true) : fp16ToFp64 h = decodeNaN (sign16 h) := by
  obtain ⟨he, hf⟩ := (isNaN16_iff h).mp hnan
  rw [fp16ToFp64, if_neg (by omega), if_pos he, if_neg hf]

theorem decodeNaN_eq_pack64 (s : BitVec 1) : decodeNaN s = pack64 s 2047 (2 ^ 51) := by
  obtain rfl | rfl := BitVec.eq_zero_or_eq_one s
  · rfl
  · rfl

/-- A leading bit of a fraction is bit 9 at most (R144). -/
theorem leading_bit_le {p : Nat} (hlow : 2 ^ p ≤ frac10 h) : p ≤ 9 := by
  have hlt : 2 ^ p < 2 ^ 10 := hlow.trans_lt (frac10_lt h)
  have := (Nat.pow_lt_pow_iff_right one_lt_two).mp hlt
  omega

/-- The bits below a subnormal's leading one fit at the top of the fraction (R144). -/
theorem subnormal_fraction_lt {p : Nat} (hlow : 2 ^ p ≤ frac10 h) (hhigh : frac10 h < 2 ^ (p + 1)) :
    (frac10 h - 2 ^ p) * 2 ^ (52 - p) < 2 ^ 52 := by
  have hp := leading_bit_le hlow
  have hbelow : frac10 h - 2 ^ p < 2 ^ p := by rw [pow_succ] at hhigh; omega
  calc (frac10 h - 2 ^ p) * 2 ^ (52 - p) < 2 ^ p * 2 ^ (52 - p) := Nat.mul_lt_mul_of_pos_right hbelow (Nat.two_pow_pos _)
    _ = 2 ^ 52 := by rw [← pow_add, Nat.add_sub_cancel' (by omega)]

/-- The four classes of patterns that are not NaN, a subnormal with its leading bit. -/
theorem class_of_not_nan (hnan : isNaN16 h = false) :
    (exp5 h = 0 ∧ frac10 h = 0) ∨ (∃ p, exp5 h = 0 ∧ 2 ^ p ≤ frac10 h ∧ frac10 h < 2 ^ (p + 1)) ∨
      (1 ≤ exp5 h ∧ exp5 h ≤ 30) ∨ (exp5 h = 31 ∧ frac10 h = 0) := by
  have hlt := exp5_lt h
  have hclass : ¬ (exp5 h = 31 ∧ frac10 h ≠ 0) := fun hn => by simp [(isNaN16_iff h).mpr hn] at hnan
  by_cases he : exp5 h = 0
  · by_cases hf : frac10 h = 0
    · exact .inl ⟨he, hf⟩
    · exact .inr (.inl ⟨_, he, msb_spec hf⟩)
  · exact .inr (.inr (by omega))

end

/-! ## The sign and the fields -/

/-- R149: every path places the sign on top. -/
theorem sign64_fp16ToFp64 (h : Half) : sign64 (fp16ToFp64 h) = sign16 h := by
  by_cases hnan : isNaN16 h = true
  · rw [fp16ToFp64_nan hnan, decodeNaN_eq_pack64, sign64_pack64]
  · rcases class_of_not_nan (Bool.eq_false_of_not_eq_true hnan) with ⟨he, hf⟩ | ⟨p, he, hlow, hhigh⟩ | ⟨hlow, hhigh⟩ | ⟨he, hf⟩
    · rw [fp16ToFp64_zero he hf, zero_pattern_eq_pack64, sign64_pack64]
    · rw [fp16ToFp64_subnormal he hlow hhigh, sign64_pack64]
    · rw [fp16ToFp64_normal hlow hhigh, sign64_pack64]
    · rw [fp16ToFp64_infinity he hf, sign64_pack64]

/-- Settles O38: `sign64_fp16ToFp64` on the transaction's result. -/
theorem decodeSignIsInputSign : Obligations.DecodeSignIsInputSign :=
  fun h => ⟨_, decodes_fp16ToFp64 h, sign64_fp16ToFp64 h⟩

/-- Settles O35: the two finite paths place fields that fit. -/
theorem decodeFields : Obligations.DecodeFields := by
  refine fun h => ⟨fun p he hlow hhigh => ?_, fun hlow hhigh => ?_⟩
  · have hp := leading_bit_le hlow
    have hfits := subnormal_fraction_lt hlow hhigh
    refine ⟨_, decodes_of_eq (fp16ToFp64_subnormal he hlow hhigh), ?_⟩
    rw [Nat.shiftLeft_eq]
    exact ⟨sign64_pack64 .., exp11_pack64 _ _ _ (by omega), frac52_pack64 _ _ _ hfits⟩
  · have hf := frac10_lt h
    refine ⟨_, decodes_of_eq (fp16ToFp64_normal hlow hhigh), ?_⟩
    exact ⟨sign64_pack64 .., exp11_pack64 _ _ _ (by omega), frac52_pack64 _ _ _ (by omega)⟩

/-- Settles O32: the path of the zeros, and the two patterns it gives. -/
theorem decodeZeroKeepsSign : Obligations.DecodeZeroKeepsSign :=
  ⟨fun _ he hf => decodes_of_eq (fp16ToFp64_zero he hf), decodes_of_eq (by decide), decodes_of_eq (by decide)⟩

/-! ## The value (R150) -/

section
variable {h : Half}

theorem val16_of_exp5_zero (he : exp5 h = 0) : val16 h = .fin (sign16 h) ((frac10 h : ℚ) * 2 ^ (-24 : ℤ)) := if_pos he

theorem val16_normal (hlow : 1 ≤ exp5 h) (hhigh : exp5 h ≤ 30) :
    val16 h = .fin (sign16 h) ((1024 + frac10 h : ℚ) * 2 ^ ((exp5 h : ℤ) - 25)) := by
  rw [val16, if_neg (by omega), if_neg (by omega)]

theorem val16_infinity (he : exp5 h = 31) (hf : frac10 h = 0) : val16 h = .inf (sign16 h) := by
  rw [val16, if_neg (by omega), if_pos he, if_pos hf]

theorem val64_pack64_infinity (s : BitVec 1) : val64 (pack64 s 2047 0) = .inf s := by
  rw [val64, exp11_pack64 _ _ _ (by decide), frac52_pack64 _ _ _ (by decide), sign64_pack64, if_neg (by decide), if_pos rfl,
    if_pos rfl]

theorem val64_fp16ToFp64_zero (he : exp5 h = 0) (hf : frac10 h = 0) : val64 (fp16ToFp64 h) = val16 h := by
  rw [fp16ToFp64_zero he hf, zero_pattern_eq_pack64, val16_of_exp5_zero he, hf,
    val64_pack64_subnormal (m := 0) (n := 0) (k := 0) _ (by decide) ((Nat.zero_mul _).trans (Nat.zero_mul _).symm)]
  simp

/-- The leading one stands for `2 ^ p`, so the fields are those of the exact fraction `frac10 / 2^24`. -/
theorem val64_fp16ToFp64_subnormal {p : Nat} (he : exp5 h = 0) (hlow : 2 ^ p ≤ frac10 h) (hhigh : frac10 h < 2 ^ (p + 1)) :
    val64 (fp16ToFp64 h) = val16 h := by
  have hp := leading_bit_le hlow
  have hvalue := val64_exactDouble_normal_shifted_up (k := 24) (sign16 h) hlow hhigh (by omega) (by omega) (by omega)
  have hexp : ((p : ℤ) - (24 : Nat) + 1023).toNat = p + 999 := by omega
  rw [hexp, ← fp16ToFp64_subnormal he hlow hhigh] at hvalue
  rw [hvalue, val16_of_exp5_zero he, zpow_neg, div_eq_mul_inv]
  rfl

/-- The significand `1024 + frac10`, shifted up by 42 bits, under an exponent that is 42 less. -/
theorem val64_fp16ToFp64_normal (hlow : 1 ≤ exp5 h) (hhigh : exp5 h ≤ 30) : val64 (fp16ToFp64 h) = val16 h := by
  have hf := frac10_lt h
  have hunits : (2 ^ 52 + frac10 h * 2 ^ 42) * 2 ^ (exp5 h + 1008 - 1 + 25) = (1024 + frac10 h) * 2 ^ exp5 h * 2 ^ 1074 := by
    rw [show 2 ^ 52 + frac10 h * 2 ^ 42 = (1024 + frac10 h) * 2 ^ 42 by ring,
      mul_two_pow_mul_two_pow _ (l := exp5 h + 1074) (by omega), mul_two_pow_mul_two_pow _ rfl]
  have hvalue := val64_pack64_normal (sign16 h) (by omega) (by omega) hunits
  rw [Nat.add_sub_cancel_left, ← fp16ToFp64_normal hlow hhigh] at hvalue
  rw [hvalue, val16_normal hlow hhigh, zpow_sub₀ two_ne_zero, zpow_natCast, cast_mul_two_pow, mul_div_assoc]
  push_cast
  rfl

theorem val64_fp16ToFp64_infinity (he : exp5 h = 31) (hf : frac10 h = 0) : val64 (fp16ToFp64 h) = val16 h := by
  rw [fp16ToFp64_infinity he hf, val64_pack64_infinity, val16_infinity he hf]

/-- DECODE is exact (R150). -/
theorem val64_fp16ToFp64 (hnan : isNaN16 h = false) : val64 (fp16ToFp64 h) = val16 h := by
  rcases class_of_not_nan hnan with ⟨he, hf⟩ | ⟨p, he, hlow, hhigh⟩ | ⟨hlow, hhigh⟩ | ⟨he, hf⟩
  · exact val64_fp16ToFp64_zero he hf
  · exact val64_fp16ToFp64_subnormal he hlow hhigh
  · exact val64_fp16ToFp64_normal hlow hhigh
  · exact val64_fp16ToFp64_infinity he hf

end

/-- Settles O39: the value of the result, class by class. -/
theorem decodeIsExact : Obligations.DecodeIsExact :=
  fun h hnan => ⟨_, decodes_fp16ToFp64 h, val64_fp16ToFp64 hnan⟩

/-- Settles O33: the exact value, with `frac10` between 1 and 1023. -/
theorem decodeSubnormalValue : Obligations.DecodeSubnormalValue := by
  intro h he hf
  obtain ⟨hlow, hhigh⟩ := msb_spec hf
  have hone : (1 : ℚ) ≤ frac10 h := by exact_mod_cast Nat.one_le_iff_ne_zero.mpr hf
  have hmax : (frac10 h : ℚ) ≤ 1023 := by exact_mod_cast Nat.le_of_lt_succ (frac10_lt h)
  refine ⟨_, (frac10 h : ℚ) * 2 ^ (-24 : ℤ), decodes_fp16ToFp64 h, ?_, ?_, rfl, ?_, ?_⟩
  · rw [val64_fp16ToFp64_subnormal he hlow hhigh, val16_of_exp5_zero he]
  · have hscale : (2 : ℚ) ^ (-14 : ℤ) = 1024 * 2 ^ (-24 : ℤ) := by norm_num
    rw [hscale]
    ring
  · exact le_mul_of_one_le_left (by positivity) hone
  · gcongr

/-- Settles O34: the exact value, with the significand divided by 1024. -/
theorem decodeNormalValue : Obligations.DecodeNormalValue := by
  intro h hlow hhigh
  have hvalue : (1024 + frac10 h : ℚ) * 2 ^ ((exp5 h : ℤ) - 25) = (1 + (frac10 h : ℚ) / 1024) * 2 ^ ((exp5 h : ℤ) - 15) := by
    have hscale : (2 : ℚ) ^ ((exp5 h : ℤ) - 15) = 2 ^ ((exp5 h : ℤ) - 25) * 2 ^ 10 := by
      rw [← zpow_natCast, ← zpow_add₀ two_ne_zero]
      congr 1
      ring
    rw [hscale]
    ring
  refine ⟨_, decodes_fp16ToFp64 h, ?_⟩
  rw [val64_fp16ToFp64_normal hlow hhigh, val16_normal hlow hhigh, hvalue]

/-- Settles O36: the exact value, and the two patterns. -/
theorem decodeInfinity : Obligations.DecodeInfinity := by
  refine ⟨fun h he hf => ⟨_, decodes_fp16ToFp64 h, ?_⟩, decodes_of_eq (by decide), decodes_of_eq (by decide)⟩
  rw [val64_fp16ToFp64_infinity he hf, val16_infinity he hf]

/-! ## NaN (R147, D6) -/

/-- The two quiet NaNs that DECODE answers. -/
theorem decodeNaN_eq_ite (s : BitVec 1) : decodeNaN s = if s = 0#1 then 0x7FF8000000000000#64 else 0xFFF8000000000000#64 := by
  obtain rfl | rfl := BitVec.eq_zero_or_eq_one s
  · rfl
  · rfl

/-- Settles O37: the path of the NaNs reads nothing but the sign. (`decodeNaN` is the model's own name for the pattern.) -/
theorem decodeNaN_isQuietOfSign : Obligations.DecodeNaN :=
  fun _ hnan => decodes_of_eq ((fp16ToFp64_nan hnan).trans (decodeNaN_eq_ite _))

theorem fp64ToFp16_decodeNaN (s : BitVec 1) : fp64ToFp16 (decodeNaN s) = pack16 s 31 0x200 := by
  rw [decodeNaN_eq_pack64, fp64ToFp16_nan (exp11_pack64 _ _ _ (by decide)) (by rw [frac52_pack64 _ _ _ (by decide)]; decide),
    sign64_pack64]
  exact (pack16_eq_halfOfRank (e := 31) (f := 0x200) s (by decide)).symm

/-! ## ENCODE undoes DECODE (R151, R152) -/

/-- Settles O41: DECODE is exact, so `encodeIsExactOnHalves` applies to its result; a NaN becomes the quiet one on both ways. -/
theorem roundTripFromHalf : Obligations.RoundTripFromHalf := by
  refine fun h => ⟨_, decodes_fp16ToFp64 h, fun hnan => ?_, fun hnan => ?_⟩
  · exact encodeIsExactOnHalves _ h hnan (val64_fp16ToFp64 hnan)
  · rw [fp16ToFp64_nan hnan, ← fp64ToFp16_decodeNaN]
    exact encodes_fp64ToFp16 (decodeNaN (sign16 h))

/-- A transaction has one result. -/
theorem Encodes.unique {a : Double} {h k : Half} (hh : Encodes a h) (hk : Encodes a k) : h = k := by
  have hstates := Host.Outcome.next.inj ((hh State.reset).symm.trans (hk State.reset))
  have hwords : h.setWidth 64 = k.setWidth 64 := by simpa using congrArg State.results hstates
  have hlow := congrArg (BitVec.setWidth 16) hwords
  rwa [BitVec.setWidth_setWidth_of_le _ (by decide), BitVec.setWidth_setWidth_of_le _ (by decide), BitVec.setWidth_eq,
    BitVec.setWidth_eq] at hlow

theorem fp16ToFp64_injective {h k : Half} (hh : isNaN16 h = false) (hk : isNaN16 k = false) (heq : fp16ToFp64 h = fp16ToFp64 k) :
    h = k := by
  have hback := encodeIsExactOnHalves _ h hh (val64_fp16ToFp64 hh)
  rw [heq] at hback
  exact hback.unique (encodeIsExactOnHalves _ k hk (val64_fp16ToFp64 hk))

/-- A binary64 value other than NaN has one pattern, the sign of a zero counted (R74). -/
theorem eq_of_val64_eq {a b : Double} (heq : val64 a = val64 b) (hnan : val64 b ≠ .nan) : a = b := by
  cases hb : val64 b with
  | fin s q => exact eq_of_val64_eq_fin (heq.trans hb) hb
  | inf s =>
    obtain ⟨hea, hfa, hsa⟩ := val64_eq_inf (heq.trans hb)
    obtain ⟨heb, hfb, hsb⟩ := val64_eq_inf hb
    rw [← pack64_fields a, ← pack64_fields b, hea, hfa, hsa, heb, hfb, hsb]
  | nan => exact absurd hb hnan

theorem val16_ne_nan {h : Half} (hnan : isNaN16 h = false) : val16 h ≠ .nan := by
  unfold val16
  split_ifs with h0 h31 hf
  case neg => simp [(isNaN16_iff h).mpr ⟨h31, hf⟩] at hnan
  all_goals simp

/-- Settles O40: injective by the round trip; a value has one pattern, so the result of a half is the only one with its value. -/
theorem decodeInjectiveAndImage : Obligations.DecodeInjectiveAndImage := by
  refine ⟨fun h k => fp16ToFp64_injective, fun d => ⟨?_, ?_⟩⟩
  · rintro ⟨h, rfl⟩
    by_cases hnan : isNaN16 h = true
    · rw [fp16ToFp64_nan hnan, decodeNaN_eq_ite]
      split_ifs
      · exact .inr (.inl rfl)
      · exact .inr (.inr rfl)
    · have hvalue := Bool.eq_false_of_not_eq_true hnan
      exact .inl ⟨h, hvalue, val64_fp16ToFp64 hvalue⟩
  · rintro (⟨h, hnan, hval⟩ | rfl | rfl)
    · have hexact := val64_fp16ToFp64 hnan
      exact ⟨h, (eq_of_val64_eq (hval.trans hexact.symm) (hexact ▸ val16_ne_nan hnan)).symm⟩
    · exact ⟨0x7E00#16, by decide⟩
    · exact ⟨0xFE00#16, by decide⟩

end Sys2Proof.Machine
end

section
/-!
PROOFS. The harness calls: which lengths `construct` refuses (R171, D14), what `get`, `set` and the accessors answer and leave unchanged
(R173, R174, R176, R177), the bytes of a byte-view write and the slots they make (R179), and the slot that holds the last value assigned
to it after any calls of any agents (R180).
-/

namespace Sys2Proof.Machine

/-! ## `construct` (R171, D14) -/

theorem execConstruct_refused {n : HostNumber} (name : ArrayName) (s : State) (h : ∀ k : Nat, n.toInt? ≠ some (k : Int)) :
    execConstruct name n s = .refused .badConstructLength := by
  cases hn : n.toInt? with
  | none => simp only [execConstruct, hn]
  | some k =>
    have hk : k < 0 := by
      by_contra hnonneg
      exact h k.toNat (by rw [hn, Int.toNat_of_nonneg (by omega)])
    simp only [execConstruct, hn, if_pos hk]

/-- Settles O43: a length that is a natural number is answered, and any other is refused. -/
theorem constructRefusesBadLength : Obligations.ConstructRefusesBadLength := by
  intro e s name n
  refine ⟨fun hrefused k hk => ?_, execConstruct_refused name s⟩
  rw [execCall, execConstruct_ok name s hk] at hrefused
  cases hrefused

/-! ## `get`, `set` and the accessors (R173, R174, R176) -/

/-- Settles O44: the three outcomes of the index check are the three outcomes of `get`. -/
theorem getAnswersDecodedSlot : Obligations.GetAnswersDecodedSlot := by
  intro e s name index arr haccess
  rcases checkIndex_cases arr index with ⟨hnone, hc⟩ | ⟨j, hj, hout, hc⟩ | ⟨j, hj, hlt, hc⟩
  · refine ⟨_, _, execGet_error haccess hc, rfl, rfl, rfl, rfl, fun _ => ⟨rfl, rfl⟩, fun i hi => ?_, fun i hi => ?_⟩
    · simp [hnone] at hi
    · simp [hnone] at hi
  · refine ⟨_, _, execGet_error haccess hc, rfl, rfl, rfl, rfl, fun hnone => ?_, fun _ _ _ => ⟨rfl, rfl⟩, fun i hi hlt => ?_⟩
    · simp [hj] at hnone
    · obtain rfl : j = i := Option.some.inj (hj.symm.trans hi)
      omega
  · refine ⟨_, _, execGet_ok haccess hc, rfl, rfl, rfl, rfl, fun hnone => ?_, fun i hi hout => ?_, fun i hi _ => ?_⟩
    · simp [hj] at hnone
    · obtain rfl : (j : Int) = i := Option.some.inj (hj.symm.trans hi)
      omega
    · obtain rfl : j = i := Int.ofNat.inj (Option.some.inj (hj.symm.trans hi))
      exact ⟨rfl, rfl⟩

/-- Settles O45: a valid index writes the element's two bytes and binds the name; an error writes nothing. -/
theorem setStoresEncodedValue : Obligations.SetStoresEncodedValue := by
  intro e s name index value arr ⟨hwf, _⟩
  refine ⟨fun i haccess hi hlt => ?_, fun haccess err herr => ?_⟩
  · refine ⟨_, arr.setSlot e i (fp64ToFp16 value), execSet_ok haccess (checkIndex_ok hi hlt),
      findArray_putArray_same s.arrays name _, rfl, HalfArray.slot_setSlot_same e arr i _ hwf, fun b hlow hhigh => ?_,
      fun j hj => HalfArray.slot_setSlot_other e arr _ hj, fun other hother => ?_, rfl, rfl, rfl, rfl⟩
    · exact readByte_memWrite_other e arr.buffer _ hlow hhigh
    · exact findArray_putArray_other s.arrays _ hother
  · have hc : checkIndex arr index = .error err := by
      obtain ⟨hnone, rfl⟩ | ⟨⟨i, hi, hout⟩, rfl⟩ := herr
      · exact checkIndex_invalid hnone
      · exact checkIndex_range hi hout
    exact ⟨_, execSet_error haccess hc, rfl, rfl, rfl, rfl, rfl⟩

/-- An index that is no element's number fails the check, with `invalidIndex` exactly when it is no integer (R172, R178). -/
theorem checkIndex_error_of_not_valid {arr : HalfArray} {index : HostNumber}
    (h : ∀ i : Nat, index.toInt? = some (i : Int) → arr.length ≤ i) :
    ∃ err, checkIndex arr index = .error err ∧ (err = .invalidIndex ↔ index.toInt? = none) := by
  rcases checkIndex_cases arr index with ⟨hnone, hc⟩ | ⟨j, hj, -, hc⟩ | ⟨j, hj, hlt, -⟩
  · exact ⟨_, hc, by simp [hnone]⟩
  · exact ⟨_, hc, by simp [hj]⟩
  · exact absurd (h j hj) (Nat.not_le.mpr hlt)

/-- Settles O46: `get` and `set` answer the error of the index check, and only the record of accesses grows. -/
theorem failedCallLeavesEverything : Obligations.FailedCallLeavesEverything := by
  intro e s name index value arr haccess hinvalid c hcall
  obtain ⟨err, hc, herr⟩ := checkIndex_error_of_not_valid hinvalid
  have hanswer : execCall e c s = .next ((s.recordAccess name false).reply (.error err)) := by
    obtain rfl | rfl := hcall
    · exact execGet_error haccess hc
    · exact execSet_error haccess hc
  exact ⟨_, err, hanswer, herr, rfl, rfl, rfl, rfl, rfl⟩

/-- Settles O47: both accessors answer from the array's length and only record the access. -/
theorem lengthAccessors : Obligations.LengthAccessors := by
  intro e s name arr haccess
  exact ⟨⟨_, execLength_ok haccess, rfl, rfl, rfl, rfl, rfl⟩, ⟨_, execByteLength_ok haccess, rfl, rfl, rfl, rfl, rfl⟩⟩

/-! ## The byte view (R179) -/

theorem Memory.readByte_writeBytes_outside {offset a : Nat} (m : Memory) (bs : List Byte)
    (h : a < offset ∨ offset + bs.length ≤ a) : (m.writeBytes offset bs).readByte a = m.readByte a := by
  induction bs generalizing m offset with
  | nil => rfl
  | cons b bs ih =>
    rw [List.length_cons] at h
    have hne : a ≠ offset := by omega
    rw [Memory.writeBytes, ih _ (by omega), Memory.readByte_writeByte_other m b hne]

/-- A byte written first stands: the rest of the write is above it. -/
theorem Memory.readByte_writeBytes_inside {m : Memory} {bs : List Byte} {j : Nat} {b : Byte} (offset : Nat) (hm : m.wf)
    (h : bs[j]? = some b) : (m.writeBytes offset bs).readByte (offset + j) = b := by
  induction bs generalizing m offset j with
  | nil => simp at h
  | cons c bs ih =>
    rw [Memory.writeBytes]
    cases j with
    | zero =>
      obtain rfl : c = b := by simpa using h
      rw [Nat.add_zero offset, Memory.readByte_writeBytes_outside _ bs (.inl (Nat.lt_add_one offset))]
      exact Memory.readByte_writeByte_same m offset c hm
    | succ j =>
      rw [Nat.add_comm j 1, ← Nat.add_assoc]
      exact ih (offset + 1) (Memory.writeByte_wf m offset c hm) h

theorem Memory.readBytes_writeBytes {m : Memory} (offset : Nat) (bs : List Byte) (hm : m.wf) :
    (m.writeBytes offset bs).readBytes offset bs.length = bs := by
  refine List.ext_getElem (Memory.length_readBytes _ offset _) fun j _ hj => ?_
  rw [List.getElem_eq_iff, Memory.getElem?_readBytes _ hj]
  exact congrArg some (Memory.readByte_writeBytes_inside offset hm (List.getElem?_eq_getElem hj))

/-- A slot that no byte of the write falls in is as it was (R52). -/
theorem HalfArray.slot_writeBytes_outside (e : Endian) (arr : HalfArray) {i offset : Nat} (bytes : List Byte)
    (h : 2 * i + 2 ≤ offset ∨ offset + bytes.length ≤ 2 * i) :
    HalfArray.slot e { arr with buffer := arr.buffer.writeBytes offset bytes } i = arr.slot e i := by
  have hlow := Memory.readByte_writeBytes_outside (a := 2 * i) (offset := offset) arr.buffer bytes (by omega)
  have hhigh := Memory.readByte_writeBytes_outside (a := 2 * i + 1) (offset := offset) arr.buffer bytes (by omega)
  cases e <;> simp only [HalfArray.slot, memRead, hlow, hhigh]

/-- The caller's own access is none that it could race with later (R60). -/
theorem State.races_recordAccess {s : State} {name array : ArrayName} {w : Bool} (w' : Bool) (h : s.races name w = false) :
    (s.recordAccess array w').races name w = false := by
  rw [State.races_eq_false] at h ⊢
  rw [State.recordAccess_accesses, List.forall_mem_append, List.forall_mem_singleton]
  exact ⟨h, fun _ _ => (Access.knownTo_eq_true _ _).mpr (.inl rfl)⟩

/-- A caller that has written to an array and got its reply may read it. -/
theorem State.CanAccess.read_after_write {s : State} {name : ArrayName} {w : Bool} {arr : HalfArray}
    (h : s.CanAccess name w arr) (arr' : HalfArray) (r : Reply) :
    (((s.recordAccess name w).putArray name arr').reply r).CanAccess name false arr' := by
  obtain ⟨-, hread⟩ := h.read
  exact ⟨findArray_putArray_same s.arrays name arr', State.races_recordAccess w hread⟩

/-- Settles O49: the bytes stand where they were written, and a later byte-view read and a `get` are admitted and read them. -/
theorem byteViewIsCoherent : Obligations.ByteViewIsCoherent := by
  intro e s name offset bytes arr haccess ⟨hwf, _⟩ hinside
  have hread := haccess.read_after_write { arr with buffer := arr.buffer.writeBytes offset bytes } .ok
  refine ⟨_, _, execWriteBytes_ok haccess hinside,
    findArray_putArray_same s.arrays name _, rfl, fun j b hb => Memory.readByte_writeBytes_inside offset hwf hb,
    fun b hb => Memory.readByte_writeBytes_outside arr.buffer bytes hb,
    fun other hother => findArray_putArray_other s.arrays _ hother, rfl, rfl, rfl, rfl, ?_, fun index i hi hlt => ?_⟩
  · refine ⟨_, execReadBytes_ok hread hinside, ?_⟩
    rw [Memory.readBytes_writeBytes offset bytes hwf]
    rfl
  · refine ⟨_, execGet_ok hread (checkIndex_ok hi hlt), ?_⟩
    cases e <;> rfl

/-! ## A slot holds the last value assigned to it (R180) -/

theorem toInt?_of_checkIndex {arr : HalfArray} {index : HostNumber} {i : Nat} (h : checkIndex arr index = .ok i) :
    index.toInt? = some (i : Int) := by
  rcases checkIndex_cases arr index with ⟨-, hc⟩ | ⟨j, -, -, hc⟩ | ⟨j, hj, -, hc⟩
  · simp [hc] at h
  · simp [hc] at h
  · rw [hc] at h
    cases h
    exact hj

/-- What R180 claims of an array at slot `i`, in the terms of `expectedAfter`, over a buffer in canonical form. -/
def HalfArray.MeetsExpected (e : Endian) (i : Nat) (expected : Nat × Option Half) (arr : HalfArray) : Prop :=
  arr.buffer.wf ∧ arr.length = expected.1 ∧ ∀ h : Half, expected.2 = some h → arr.slot e i = h

/-- The same of the array that a name stands for. -/
def MeetsExpected (e : Endian) (name : ArrayName) (i : Nat) (expected : Nat × Option Half)
    (arrays : List (ArrayName × HalfArray)) : Prop :=
  ∃ arr, findArray arrays name = some arr ∧ arr.MeetsExpected e i expected

section
variable {e : Endian} {name array : ArrayName} {i : Nat} {expected : Nat × Option Half} {arr : HalfArray}
  {arrays : List (ArrayName × HalfArray)}

theorem HalfArray.fresh_meetsExpected (e : Endian) (i k : Nat) :
    (HalfArray.fresh k).MeetsExpected e i (k, some 0x0000#16) := by
  obtain ⟨hwf, -⟩ := HalfArray.fresh_inv k
  refine ⟨hwf, rfl, fun h hh => ?_⟩
  cases hh
  exact HalfArray.fresh_slot e k i

/-- Binding a name to an array: the claim is the new array's if it is that name, and no other name's array changes. -/
theorem MeetsExpected.putArray {after : Nat × Option Half} (h : MeetsExpected e name i expected arrays)
    (hsame : array = name → arr.MeetsExpected e i after) (hother : array ≠ name → after = expected) :
    MeetsExpected e name i after (putArray arrays array arr) := by
  by_cases harray : array = name
  · subst harray
    exact ⟨arr, findArray_putArray_same arrays array arr, hsame rfl⟩
  · obtain ⟨old, hfind, hold⟩ := h
    rw [hother harray]
    exact ⟨old, (findArray_putArray_other arrays arr (Ne.symm harray)).trans hfind, hold⟩

/-- The claim of a name is a claim of the array found under it. -/
theorem MeetsExpected.of_findArray (h : MeetsExpected e name i expected arrays) (hfind : findArray arrays name = some arr) :
    arr.MeetsExpected e i expected := by
  obtain ⟨old, hold, hmeets⟩ := h
  rw [hold] at hfind
  cases hfind
  exact hmeets

/-! What each kind of call does to the expected slot. -/

/-- An element assigned: at `i` it is the one expected, and at another index it leaves slot `i` alone. -/
theorem HalfArray.MeetsExpected.setSlot {index : HostNumber} {j : Nat} (value : Double) (h : arr.MeetsExpected e i expected)
    (hj : checkIndex arr index = .ok j) : (arr.setSlot e j (fp64ToFp16 value)).MeetsExpected e i
      (expectedAfter name i expected (.set name index value)) := by
  obtain ⟨hwf, hlength, hslot⟩ := h
  have hindex : index.toInt? = some (j : Int) := toInt?_of_checkIndex hj
  have hj' : j < expected.1 := hlength ▸ lt_length_of_checkIndex hj
  have hwf' := memWrite_wf e arr.buffer (2 * j) (fp64ToFp16 value) hwf
  by_cases hji : j = i
  · subst hji
    have hafter : expectedAfter name j expected (.set name index value) = (expected.1, some (fp64ToFp16 value)) :=
      if_pos ⟨rfl, hindex, hj'⟩
    rw [hafter]
    refine ⟨hwf', hlength, fun h hh => ?_⟩
    cases hh
    exact HalfArray.slot_setSlot_same e arr j _ hwf
  · have hafter : expectedAfter name i expected (.set name index value) = expected :=
      if_neg fun ⟨_, hi, _⟩ => hji (by simpa [hindex] using hi)
    rw [hafter]
    exact ⟨hwf', hlength, fun h hh => (HalfArray.slot_setSlot_other e arr _ (Ne.symm hji)).trans (hslot h hh)⟩

/-- A byte-view write that covers slot `i` leaves nothing to claim of it, and one beside it leaves it alone. -/
theorem HalfArray.MeetsExpected.writeBytes (name : ArrayName) (offset : Nat) (bytes : List Byte)
    (h : arr.MeetsExpected e i expected) :
    HalfArray.MeetsExpected e i (expectedAfter name i expected (.writeBytes name offset bytes))
      { arr with buffer := arr.buffer.writeBytes offset bytes } := by
  obtain ⟨hwf, hlength, hslot⟩ := h
  have hwf' := Memory.writeBytes_wf arr.buffer offset bytes hwf
  by_cases hcovers : bytes ≠ [] ∧ offset < 2 * i + 2 ∧ 2 * i < offset + bytes.length
  · have hafter : expectedAfter name i expected (.writeBytes name offset bytes) = (expected.1, none) :=
      if_pos ⟨rfl, hcovers⟩
    rw [hafter]
    exact ⟨hwf', hlength, nofun⟩
  · have hafter : expectedAfter name i expected (.writeBytes name offset bytes) = expected :=
      if_neg fun ⟨_, hcovers'⟩ => hcovers hcovers'
    rw [hafter]
    refine ⟨hwf', hlength, fun h hh => (?_ : _ = arr.slot e i).trans (hslot h hh)⟩
    by_cases hempty : bytes = []
    · subst hempty
      rfl
    · exact HalfArray.slot_writeBytes_outside e arr bytes (by have := not_and.mp hcovers hempty; omega)

end

/-! What each call does to the claim; a call that binds no name leaves it as it is. -/

section
variable {e : Endian} {name array : ArrayName} {i : Nat} {expected : Nat × Option Half} {s t : State}

theorem execConstruct_meetsExpected {n : HostNumber} (h : MeetsExpected e name i expected s.arrays)
    (hnext : execConstruct array n s = .next t) :
    MeetsExpected e name i (expectedAfter name i expected (.construct array n)) t.arrays := by
  obtain ⟨k, hk, -, rfl⟩ := execConstruct_next hnext
  refine h.putArray (fun hsame => ?_) fun hother => if_neg hother
  have hafter : expectedAfter name i expected (.construct array n) = (k.toNat, some 0x0000#16) := by
    simp [expectedAfter, hsame, hk]
  rw [hafter]
  exact HalfArray.fresh_meetsExpected e i k.toNat

theorem execSet_meetsExpected {index : HostNumber} {value : Double} (h : MeetsExpected e name i expected s.arrays)
    (hnext : execSet e array index value s = .next t) :
    MeetsExpected e name i (expectedAfter name i expected (.set array index value)) t.arrays := by
  obtain ⟨arr, hfind, -, ⟨err, herr, rfl⟩ | ⟨j, hj, rfl⟩⟩ := execSet_next hnext
  · have hafter : expectedAfter name i expected (.set array index value) = expected := if_neg fun ⟨hsame, hindex, hi⟩ => by
      subst hsame
      obtain ⟨-, hlength, -⟩ := h.of_findArray hfind
      simp [checkIndex_ok hindex (hlength ▸ hi)] at herr
    rw [hafter]
    exact h
  · refine h.putArray (fun hsame => ?_) fun hother => if_neg fun ⟨hsame, _⟩ => hother hsame
    subst hsame
    exact (h.of_findArray hfind).setSlot value hj

theorem execWriteBytes_meetsExpected {offset : Nat} {bytes : List Byte} (h : MeetsExpected e name i expected s.arrays)
    (hnext : execWriteBytes array offset bytes s = .next t) :
    MeetsExpected e name i (expectedAfter name i expected (.writeBytes array offset bytes)) t.arrays := by
  obtain ⟨arr, hfind, -, -, rfl⟩ := execWriteBytes_next hnext
  refine h.putArray (fun hsame => ?_) fun hother => if_neg fun ⟨hsame, _⟩ => hother hsame
  subst hsame
  exact (h.of_findArray hfind).writeBytes array offset bytes

theorem execGet_arrays {index : HostNumber} (hnext : execGet e array index s = .next t) : t.arrays = s.arrays := by
  obtain ⟨arr, -, -, ⟨err, -, rfl⟩ | ⟨j, -, rfl⟩⟩ := execGet_next hnext
  · rfl
  · rfl

theorem readCall_arrays {c : HostCall}
    (hc : c = .length array ∨ c = .byteLength array ∨ ∃ offset count, c = .readBytes array offset count)
    (hnext : execCall e c s = .next t) : t.arrays = s.arrays := by
  obtain ⟨arr, r, -, -, rfl⟩ := readCall_next hc hnext
  rfl

theorem execCall_meetsExpected {c : HostCall} (h : MeetsExpected e name i expected s.arrays)
    (hnext : execCall e c s = .next t) : MeetsExpected e name i (expectedAfter name i expected c) t.arrays := by
  cases c with
  | construct array n => exact execConstruct_meetsExpected h hnext
  | get array index => exact execGet_arrays hnext ▸ h
  | set array index value => exact execSet_meetsExpected h hnext
  | length array => exact readCall_arrays (.inl rfl) hnext ▸ h
  | byteLength array => exact readCall_arrays (.inr (.inl rfl)) hnext ▸ h
  | readBytes array offset count => exact readCall_arrays (.inr (.inr ⟨offset, count, rfl⟩)) hnext ▸ h
  | writeBytes array offset bytes => exact execWriteBytes_meetsExpected h hnext
  | synchronise partner =>
    cases hnext
    exact h

/-- Calls that all answer: the first one does, and the others do from the state it leaves. -/
theorem performAll_cons_next {g : Agent} {c : HostCall} {rest : List (Agent × HostCall)}
    (h : performAll e ((g, c) :: rest) s = .next t) :
    ∃ u, execCall e c { s with caller := g } = .next u ∧ performAll e rest u = .next t := by
  rw [performAll] at h
  cases hc : execCall e c { s with caller := g } with
  | next u => exact ⟨u, rfl, by simpa only [hc] using h⟩
  | fault f => simp [hc] at h
  | refused r => simp [hc] at h

theorem performAll_meetsExpected {calls : List (Agent × HostCall)} (h : MeetsExpected e name i expected s.arrays)
    (hrun : performAll e calls s = .next t) : MeetsExpected e name i (expectedSlot name i expected calls) t.arrays := by
  induction calls generalizing s expected with
  | nil =>
    cases hrun
    exact h
  | cons call rest ih =>
    obtain ⟨u, hcall, hrest⟩ := performAll_cons_next hrun
    exact ih (execCall_meetsExpected (s := { s with caller := call.1 }) h hcall) hrest

end

/-- Settles O55: the construction makes the claim true of the fresh array, and every call that answers keeps it. -/
theorem slotHoldsLastAssignedValue : Obligations.SlotHoldsLastAssignedValue := by
  intro e name n k i s₀ s t calls hlength hconstruct hrun
  have hstart : MeetsExpected e name i (k, some 0x0000#16) s.arrays := by
    rw [execCall, execConstruct_ok name s₀ hlength] at hconstruct
    cases hconstruct
    exact ⟨.fresh k, findArray_putArray_same s₀.arrays name _, HalfArray.fresh_meetsExpected e i k⟩
  obtain ⟨arr, hfind, -, hslots, hslot⟩ := performAll_meetsExpected hstart hrun
  exact ⟨arr, hfind, hslots, fun h hh _ => hslot h hh⟩

end Sys2Proof.Machine
end

section
/-!
PROOFS. Nothing waits (R231), a call on an array that was never constructed has no meaning (R232, D14), and the build that registers its
ports delays every result by LATENCY cycles and changes none (R234, D3).
-/

namespace Sys2Proof.Machine

/-! ## The clocked build (R234) -/

/-- With no stages the result leaves in the cycle of its operand (D3). -/
theorem Stages.cycle_nil (p : Option Instr) : Stages.cycle [] p = (p.map resultOf, []) := rfl

theorem Stages.cycle_cons (out : Option (BitVec 64)) (st : Stages) (p : Option Instr) :
    Stages.cycle (out :: st) p = (out, st ++ [p.map resultOf]) := rfl

section
variable {latency t : Nat} {presented : List (Option Instr)}

/-- The clocked build is a queue: what comes out is what was on its way, then the results of what is presented, one a cycle. -/
theorem Stages.outputs_eq_take (st : Stages) (presented : List (Option Instr)) :
    st.outputs presented = (st ++ presented.map (Option.map resultOf)).take presented.length := by
  induction presented generalizing st with
  | nil => rfl
  | cons p ps ih =>
    cases st with
    | nil => simp [Stages.outputs, Stages.cycle_nil, ih]
    | cons out st => simp [Stages.outputs, Stages.cycle_cons, ih]

theorem Stages.getElem?_outputs_empty (h : t < presented.length) :
    ((Stages.empty latency).outputs presented)[t]? =
      if t < latency then some none else (presented[t - latency]?).map (Option.map resultOf) := by
  rw [Stages.outputs_eq_take, List.getElem?_take_of_lt h, Stages.empty]
  split_ifs with hlatency
  · rw [List.getElem?_append_left (by simpa using hlatency), List.getElem?_replicate_of_lt hlatency]
  · rw [List.getElem?_append_right (by simpa using hlatency), List.length_replicate, List.getElem?_map]

end

/-- Settles O58: after `latency` empty stages the queue holds the results in the order presented. -/
theorem clockedResultAfterLatency : Obligations.ClockedResultAfterLatency := by
  refine fun latency presented => ⟨fun t p hp hlt => ?_, fun t ht hlt => ?_⟩
  · rw [Stages.getElem?_outputs_empty hlt, if_neg (Nat.not_lt.mpr (Nat.le_add_left latency t)), Nat.add_sub_cancel, hp,
      Option.map_some]
  · rw [Stages.getElem?_outputs_empty hlt, if_pos ht]

/-! ## Every operation completes (R231) -/

section
variable {s : State} {name : ArrayName} {arr : HalfArray}

/-- A `get` that is admitted returns one result: the element, or the index check's error (R173). -/
theorem execGet_replies (e : Endian) (index : HostNumber) (h : s.CanAccess name false arr) :
    ∃ t r, execGet e name index s = .next t ∧ t.results = s.results ++ [(s.caller, r)] := by
  cases hc : checkIndex arr index with
  | error err => exact ⟨_, _, execGet_error h hc, rfl⟩
  | ok i => exact ⟨_, _, execGet_ok h hc, rfl⟩

/-- A `set` that is admitted as a write returns one result; where the index check fails it only reads, and one who may write may read. -/
theorem execSet_replies (e : Endian) (index : HostNumber) (value : Double) (h : s.CanAccess name true arr) :
    ∃ t r, execSet e name index value s = .next t ∧ t.results = s.results ++ [(s.caller, r)] := by
  cases hc : checkIndex arr index with
  | error err => exact ⟨_, _, execSet_error h.read hc, rfl⟩
  | ok i => exact ⟨_, _, execSet_ok h hc, rfl⟩

theorem HostNumber.toInt?_of_isLength {n : HostNumber} (h : n.isLength = true) : ∃ k : Nat, n.toInt? = some (k : Int) := by
  unfold HostNumber.isLength at h
  cases hn : n.toInt? with
  | none => simp [hn] at h
  | some k =>
    have hk : 0 ≤ k := by simpa [hn] using h
    exact ⟨k.toNat, by rw [Int.toNat_of_nonneg hk]⟩

end

/-- Settles O51: `exec` answers in every state, and each harness call by its own equation. -/
theorem everyOperationCompletes : Obligations.EveryOperationCompletes := by
  refine ⟨fun i s => ⟨_, resultOf i, exec_eq i s, rfl⟩, fun e s => ⟨fun name arr haccess => ?_, fun name n hn => ?_⟩⟩
  · exact ⟨fun index => execGet_replies e index haccess.read, fun index value => execSet_replies e index value haccess,
      ⟨_, _, execLength_ok haccess.read, rfl⟩, ⟨_, _, execByteLength_ok haccess.read, rfl⟩⟩
  · obtain ⟨k, hk⟩ := HostNumber.toInt?_of_isLength hn
    exact ⟨_, execConstruct_ok name s hk⟩

/-! ## An array that was never constructed (R232, D14) -/

theorem execCall_of_never_constructed {e : Endian} {c : HostCall} {s : State} {name : ArrayName} {writes : HalfArray → Bool}
    (hc : c.opens? = some (name, writes)) (hf : findArray s.arrays name = none) : execCall e c s = .refused .neverConstructed :=
  execCall_of_openArray_error hc (State.openArray_none hf)

/-- Settles O52: each of these calls opens the array it names. -/
theorem neverConstructedIsRefused : Obligations.NeverConstructedIsRefused := by
  intro e s name hf
  have hrefused : ∀ {c writes}, HostCall.opens? c = some (name, writes) → execCall e c s = .refused .neverConstructed :=
    fun hc => execCall_of_never_constructed hc hf
  exact ⟨fun _ => hrefused rfl, fun _ _ => hrefused rfl, hrefused rfl, hrefused rfl, fun _ _ => hrefused rfl,
    fun _ _ => hrefused rfl⟩

end Sys2Proof.Machine
end

section
/-!
PROOFS. A step with nothing presented (R230, R231; log 3).
-/

namespace Sys2Proof.Machine

theorem State.fetch_of_pending_nil {s : State} (h : s.pending = []) : s.fetch = .idle := by
  simp only [State.fetch, h]

theorem step_of_fetch_idle {s : State} (h : s.fetch = .idle) : step s = .next s := by
  simp only [step, h]

/-- Settles O10: the fetch of an empty queue is idle, and an idle step answers its own state. -/
theorem nothingPresentedChangesNothing : Obligations.NothingPresentedChangesNothing :=
  fun _ hpending => step_of_fetch_idle (State.fetch_of_pending_nil hpending)

end Sys2Proof.Machine
end
